-- ==== Sys2Proof/Word.lean ====
section
/-! DEFINITION. The widths of the block's values (spec/00_scope.md R8) and nothing else. -/

namespace Sys2Proof

/-- A byte, 8 bits (R8). -/
abbrev Byte := BitVec 8

/-- A raw sample or a packed colour, 16 bits (R93, R96). -/
abbrev Cell16 := BitVec 16

/-- A host word, 32 bits (R8, R69). -/
abbrev HostWord := BitVec 32

/-- A host byte address, 20 bits (R66). -/
abbrev HostAddr := BitVec 20

/-- A host request: WR in bit 52, ADDR in bits 51:32, WDATA in bits 31:0 (R102). -/
abbrev HostReq := BitVec 53

/-- The CORE's dispatch word D (R98). -/
abbrev DispatchWord := BitVec 16

end Sys2Proof
end

