-- ==== Sys2Proof/Config.lean ====
section
/-! DEFINITION. What is fixed for the machine: the threshold and delay of R6, DUMMY_TX of R7, the two
open parameters of R7 as a record, and the free values (draws) of R11. The geometry of R6 (164, 82,
60, 4, 20, 120, 160, 30) stands as the numerals of the spec's own pseudocode and address formulas. -/

namespace Sys2Proof.Config

/-- RESYNC_THRESHOLD (R6). -/
def resyncThreshold : HostWord := 750

/-- RECOVERY_DELAY_US, 750 ms (R6). -/
def recoveryDelayUs : Nat := 750000

/-- DUMMY_TX (R7). -/
def dummyTx : Byte := 0x00

/-- The two values of RESYNC_CLEAR_POLICY (R126). -/
inductive ClearPolicy where
  /-- PKT_ACCEPT sets RESYNC_CNT to 0; the spec's default. -/
  | onAccept
  /-- only BUS_RECOVER_END and reset set RESYNC_CNT to 0. -/
  | recoveryOnly
  deriving DecidableEq, Repr

/-- The parameters R7 leaves to the model's user. `State` carries one such record, so that a
statement about every state is a statement about every value of them (log 6, log 7). -/
structure Params where
  /-- RESYNC_CLEAR_POLICY (R126). -/
  clearPolicy : ClearPolicy
  /-- RESYNC_DELAY_US, a natural number greater than 0 (R7). -/
  resyncDelayUs : Nat
  deriving DecidableEq, Repr

/-- One less than the RESYNC_DELAY_US that reset carries: an OPEN parameter (R7), so it has no
value here (log 6). -/
opaque resyncDelayPred : Nat

/-- The parameters that `State.reset` carries: the default policy of R126, and an unknown delay
greater than 0. -/
def defaultParams : Params := { clearPolicy := .onAccept, resyncDelayUs := resyncDelayPred + 1 }

/-- The free bytes: the `n`-th draw of R11 (a byte received from TRANSPORT, R120, log 4) or R73 (a
byte read from a window in its writing phase, log 5). Nothing is known of any of them. -/
opaque freeByte : Nat → Byte

end Sys2Proof.Config
end

