-- ==== Sys2Proof/Machine/Operands.lean ====
section
/-! DEFINITION. What the operations compute on plain values: addresses of the windows (R66, R67), packet
fields (R90 to R92), samples and geometry (R93, R94), exact arithmetic (R171, R172), palette offsets
(R95) and the packed colour (R96). -/

namespace Sys2Proof.Machine

/-! ### Addresses (R66, R67) -/

/-- PALETTE[n] is at 0x01000 + n (R66). -/
def paletteAddr (n : Nat) : Nat := 0x01000 + n

/-- RXPKT[i] is at 0x08000 + i (R66). -/
def rxpktAddr (i : Nat) : Nat := 0x08000 + i

/-- SEGSTORE[k][p][i] is at 0x10000 + 9840*k + 164*p + i (R66). -/
def segstoreAddr (k p i : Nat) : Nat := 0x10000 + 9840 * k + 164 * p + i

/-- STAGING[p][i] is at 0x20000 + 164*p + i (R66). -/
def stagingAddr (p i : Nat) : Nat := 0x20000 + 164 * p + i

/-- Cell (r, c) of a frame window starts at base + 2*(160*r + c) (R67). -/
def cellAddr (base r c : Nat) : Nat := base + 2 * (160 * r + c)

/-- TFRAME's window (R66). -/
abbrev tframeBase : Nat := 0x30000

/-- DFRAME's window (R66). -/
abbrev dframeBase : Nat := 0x40000

/-! ### Byte orders -/

/-- Frame cells from a window's bytes, low-order byte first (R67). -/
def cellsOfBytes : List Byte → List Cell16
  | lo :: hi :: rest => (hi ++ lo) :: cellsOfBytes rest
  | _ => []

/-- A frame window's bytes from its cells, low-order byte first (R67). -/
def bytesOfCells : List Cell16 → List Byte
  | [] => []
  | c :: rest => c.extractLsb' 0 8 :: c.extractLsb' 8 8 :: bytesOfCells rest

/-- A host word from four bytes, the lowest address in bits 7:0 (R68). -/
def hostWordOf (b0 b1 b2 b3 : Byte) : HostWord := b3 ++ b2 ++ b1 ++ b0

/-- The four bytes of a host word, bits 7:0 first (R68, R70). -/
def bytesOfHostWord (v : HostWord) : List Byte :=
  [v.extractLsb' 0 8, v.extractLsb' 8 8, v.extractLsb' 16 8, v.extractLsb' 24 8]

/-! ### Packets and samples (R90 to R94) -/

/-- SEGID of a telemetry packet's byte 0: bits 7:4 (R92). -/
def segidOf (b : Byte) : BitVec 4 := b.extractLsb' 4 4

/-- An identifier is valid exactly when it is 1, 2, 3 or 4 (R92). -/
def segidValid (g : BitVec 4) : Bool := 1 ≤ g.toNat && g.toNat ≤ 4

/-- The 16-bit samples of a byte stream, big-endian: the first byte is the high-order byte (R93). -/
def samplesOf : List Byte → List Cell16
  | hi :: lo :: rest => (hi ++ lo) :: samplesOf rest
  | _ => []

/-- The 80 payload words of a packet: words 2 to 81, after the two header words (R90, R152). -/
def payloadOf (pkt : List Byte) : List Cell16 := samplesOf (pkt.drop 4)

/-- The samples before the first sentinel: the words a pass writes (R153). -/
def keptOf (words : List Cell16) : List Cell16 := words.takeWhile (· != 0)

/-- Output row of segment s, packet p (R94). -/
def rowOf (s p : Nat) : Nat := 30 * (s - 1) + p / 2

/-- Output column of packet p, payload word k (R94). -/
def colOf (p k : Nat) : Nat := 80 * (p % 2) + k

/-- The order of a pass: segments 1 to 4 ascending, in each the packets 0 to 59 (R151). -/
def passOrder : List (Nat × Nat) := [1, 2, 3, 4].flatMap fun s => (List.range 60).map fun p => (s, p)

/-! ### Exact arithmetic (R171, R172) -/

/-- 2^e for an integer e. -/
def pow2 : Int → Rat
  | .ofNat n => ((2 ^ n : Nat) : Rat)
  | .negSucc n => mkRat 1 (2 ^ (n + 1))

/-- |q|. -/
def magnitude (q : Rat) : Rat := if 0 ≤ q then q else -q

/-- The integer e with 2^e <= q < 2^(e+1), for q > 0 (R171). -/
def floorLog2 (q : Rat) : Int :=
  let e : Int := (Nat.log2 q.num.natAbs : Int) - (Nat.log2 q.den : Int)
  if pow2 e ≤ q then e else e - 1

/-- m rounded to the nearest integer, ties to the even integer (R171). -/
def roundHalfEven (m : Rat) : Int :=
  let f := m.floor
  let r := m - f
  if r < 1 / 2 then f
  else if 1 / 2 < r then f + 1
  else if f % 2 = 0 then f else f + 1

/-- The unit in the last place of a non-zero q: u = 2^(e-52) (R171). -/
def ulp (q : Rat) : Rat := pow2 (floorLog2 (magnitude q) - 52)

/-- fl64(q): q rounded to binary64, as R171 defines it: fl64(0) = 0, else sign(q) * m' * u with m'
the rounding of |q| / u (G1 of spec/93). -/
def fl64 (q : Rat) : Rat :=
  if q = 0 then 0
  else
    let v := (roundHalfEven (magnitude q / ulp q) : Rat) * ulp q
    if 0 ≤ q then v else -v

/-- round_half_away(p): floor(p + 1/2) if p >= 0, else -floor(-p + 1/2) (R171, G2 of spec/93). -/
def roundHalfAway (p : Rat) : Int :=
  if 0 ≤ p then (p + 1 / 2).floor else -(-p + 1 / 2).floor

/-- scale = fl64(255 / SCALE_SPAN) (R172). -/
def scaleOf (span : BitVec 16) : Rat := fl64 (255 / (span.toNat : Rat))

/-- NORM(raw) = round_half_away(fl64(d * scale)) with d = raw - MIN_L (R172). -/
def normOf (minL span : BitVec 16) (raw : Cell16) : Int :=
  let d : Int := (raw.toNat : Int) - (minL.toNat : Int)
  roundHalfAway (fl64 ((d : Rat) * scaleOf span))

/-! ### Palette and packed colour (R95, R96) -/

/-- off_c(v) = clamp(3*v + c, 0, 767) (R95). -/
def paletteOffset (v : Int) (c : Nat) : Nat := (min (max (3 * v + c) 0) 767).toNat

/-- pack565(R, G, B): bits 15:11 = R[7:3], 10:5 = G[7:2], 4:0 = B[7:3] (R96). -/
def pack565 (r g b : Byte) : Cell16 := r.extractLsb' 3 5 ++ g.extractLsb' 2 6 ++ b.extractLsb' 3 5

end Sys2Proof.Machine
end

