-- ==== Sys2Proof/Syntax.lean ====
section
/-! DEFINITION. The fourteen operations of spec/opcode_table.json, and the two kinds of words that
select them. -/

namespace Sys2Proof

/-- One constructor per row of spec/opcode_table.json (R99, R102). The eleven CORE operations have
no operands; a host transaction carries every bit of its request. -/
inductive Instr where
  /-- PKT_RECV (R120). -/
  | pktRecv
  /-- PKT_ACCEPT (R121). -/
  | pktAccept
  /-- PKT_MISMATCH (R122). -/
  | pktMismatch
  /-- RESYNC_RESUME (R123). -/
  | resyncResume
  /-- BUS_RECOVER_BEGIN (R124). -/
  | busRecoverBegin
  /-- BUS_RECOVER_END (R125). -/
  | busRecoverEnd
  /-- SEG_REJECT (R140). -/
  | segReject
  /-- SEG_COMMIT (R141). -/
  | segCommit
  /-- COMPOSITE (R150). -/
  | composite
  /-- COLORIZE (R177). -/
  | colorize
  /-- PRESENT_DONE (R178). -/
  | presentDone
  /-- HOST_READ (R200); WDATA is ignored (R102) but stands in the request the history records. -/
  | hostRead (addr : HostAddr) (wdata : HostWord)
  /-- HOST_WRITE (R201). -/
  | hostWrite (addr : HostAddr) (wdata : HostWord)
  /-- CMD_RANGE_DONE (R202): WR = 1, ADDR = 0x00018, WDATA[7:0] = 0x01, and the ignored bits
  WDATA[31:8] (R104). -/
  | cmdRangeDone (wdataHi : BitVec 24)
  deriving DecidableEq, Repr

/-- The two kinds of words of spec/opcode_table.json: `dispatch16` (R98) and `host53` (R102). -/
inductive CodeWord where
  | dispatch (d : DispatchWord)
  | host (q : HostReq)
  deriving DecidableEq, Repr

end Sys2Proof
end

