-- ==== Sys2Proof/WellFormed.lean ====
section
/-! DEFINITION. Which terms of `Instr` stand for a word: a write of code 0x01 to CMD is
CMD_RANGE_DONE and no HOST_WRITE (R102, R201). -/

namespace Sys2Proof

/-- The request of a HOST_WRITE that is CMD_RANGE_DONE's (R102). -/
def isRangeDoneWrite (addr : HostAddr) (wdata : HostWord) : Bool :=
  addr == 0x00018 && wdata.extractLsb' 0 8 == 0x01

/-- Every term is well formed but a HOST_WRITE whose word is CMD_RANGE_DONE's, since a decoder tries
that row first (R102: its priority is 1 and the others' 0). -/
def Instr.wf : Instr → Bool
  | .pktRecv => true
  | .pktAccept => true
  | .pktMismatch => true
  | .resyncResume => true
  | .busRecoverBegin => true
  | .busRecoverEnd => true
  | .segReject => true
  | .segCommit => true
  | .composite => true
  | .colorize => true
  | .presentDone => true
  | .hostRead _ _ => true
  | .hostWrite addr wdata => !isRangeDoneWrite addr wdata
  | .cmdRangeDone _ => true

end Sys2Proof
end

