-- ==== Sys2Proof/Decode.lean ====
section
/-! DEFINITION. The decoder of the two kinds of words (R98, R99, R102), the encoder, and the table
word the host asks about. -/

namespace Sys2Proof

/-- Why a word selects no operation. -/
inductive DecodeError where
  /-- the dispatch word matches no row and its PHASE is legal: the CORE holds (R101). -/
  | hold
  /-- the dispatch word's PHASE is 0x9 to 0xF (R100). -/
  | reservedPhase
  /-- the bits do not fit the 16-bit dispatch word or the 53-bit request (R106). -/
  | tooWide
  deriving DecidableEq, Repr

/-- A row of the dispatch table (R99). -/
structure DispatchRow where
  op : Instr
  mtch : DispatchWord
  mask : DispatchWord
  deriving DecidableEq, Repr

/-- The dispatch table of R99, row for row. -/
def dispatchTable : List DispatchRow :=
  [ ⟨.pktRecv,         0x0000, 0x000F⟩,
    ⟨.pktAccept,       0x0011, 0x001F⟩,
    ⟨.pktMismatch,     0x0001, 0x001F⟩,
    ⟨.resyncResume,    0x0102, 0x012F⟩,
    ⟨.busRecoverBegin, 0x0122, 0x012F⟩,
    ⟨.busRecoverEnd,   0x0103, 0x010F⟩,
    ⟨.segReject,       0x0004, 0x004F⟩,
    ⟨.segCommit,       0x0044, 0x004F⟩,
    ⟨.composite,       0x0005, 0x000F⟩,
    ⟨.colorize,        0x0007, 0x000F⟩,
    ⟨.presentDone,     0x0108, 0x010F⟩ ]

/-- A row is the CORE's when `(D & mask) = match`; bits outside the mask are ignored (R99). -/
def DispatchRow.hits (r : DispatchRow) (d : DispatchWord) : Bool := d &&& r.mask == r.mtch

/-- The PHASE codes 0x9 to 0xF are reserved (R100). -/
def phaseReserved (p : BitVec 4) : Bool := 9 ≤ p.toNat

/-- The operation a dispatch word selects (R99), or why it selects none (R100, R101). -/
def decodeDispatch (d : DispatchWord) : Except DecodeError Instr :=
  match dispatchTable.find? (·.hits d) with
  | some r => .ok r.op
  | none => .error (if phaseReserved (d.extractLsb' 0 4) then .reservedPhase else .hold)

/-- WR, bit 52 of a request (R102). -/
def reqWr (q : HostReq) : BitVec 1 := q.extractLsb' 52 1

/-- ADDR, bits 51:32 of a request (R102). -/
def reqAddr (q : HostReq) : HostAddr := q.extractLsb' 32 20

/-- WDATA, bits 31:0 of a request (R102). -/
def reqData (q : HostReq) : HostWord := q.extractLsb' 0 32

/-- The transaction of a request. CMD_RANGE_DONE's row has priority 1 and is tried first (R102).
Every 53-bit word is a request. -/
def decodeHost (q : HostReq) : Instr :=
  if q &&& 0x1FFFFF000000FF = 0x10001800000001 then .cmdRangeDone (q.extractLsb' 8 24)
  else if reqWr q = 1 then .hostWrite (reqAddr q) (reqData q)
  else .hostRead (reqAddr q) (reqData q)

/-- The decoder, total on both kinds of words. -/
def decode : CodeWord → Except DecodeError Instr
  | .dispatch d => decodeDispatch d
  | .host q => .ok (decodeHost q)

/-- The request of a transaction: HREQ = WR << 52 | ADDR << 32 | WDATA (R102). -/
def hostReq (wr : BitVec 1) (addr : HostAddr) (wdata : HostWord) : HostReq := wr ++ addr ++ wdata

/-- WDATA of a CMD_RANGE_DONE: code 0x01 in bits 7:0 under the ignored bits 31:8 (R104). -/
def rangeDoneData (wdataHi : BitVec 24) : HostWord := wdataHi ++ (0x01 : Byte)

/-- The encoder: a dispatch row's match word with its ignored bits 0 (R99), or the request (R102). -/
def encode : Instr → CodeWord
  | .pktRecv => .dispatch 0x0000
  | .pktAccept => .dispatch 0x0011
  | .pktMismatch => .dispatch 0x0001
  | .resyncResume => .dispatch 0x0102
  | .busRecoverBegin => .dispatch 0x0122
  | .busRecoverEnd => .dispatch 0x0103
  | .segReject => .dispatch 0x0004
  | .segCommit => .dispatch 0x0044
  | .composite => .dispatch 0x0005
  | .colorize => .dispatch 0x0007
  | .presentDone => .dispatch 0x0108
  | .hostRead addr wdata => .host (hostReq 0 addr wdata)
  | .hostWrite addr wdata => .host (hostReq 1 addr wdata)
  | .cmdRangeDone wdataHi => .host (hostReq 1 0x00018 (rangeDoneData wdataHi))

/-- A word of spec/opcode_table.json as a code word: up to 16 bits a dispatch word, more bits a
request (R106: every encoding is fixed in length). A number that does not fit is refused (log 14). -/
def tableCodeWord (nbits w : Nat) : Except DecodeError CodeWord :=
  if nbits ≤ 16 then
    if w < 2 ^ 16 then .ok (.dispatch (BitVec.ofNat 16 w)) else .error .tooWide
  else
    if w < 2 ^ 53 then .ok (.host (BitVec.ofNat 53 w)) else .error .tooWide

/-- The operation the decoder reads from a word numbered as spec/opcode_table.json numbers it. -/
def decodeTableWord (nbits w : Nat) : Option Instr :=
  match tableCodeWord nbits w with
  | .ok c => (decode c).toOption
  | .error _ => none

end Sys2Proof
end

