-- ==== Sys2Proof/Machine/State.lean ====
section
/-! DEFINITION. The state of the block (R43), the agents' steps still to come, the reasons a step can
stop, and the state after reset (R250). -/

namespace Sys2Proof.Machine

/-- Memory over the host address space (R66): (address, byte) pairs in one canonical form, see
`Memory.wf`. What an unlisted address reads as is `Memory.unlisted`, the reset contents. -/
abbrev Memory := List Host.Cell

/-- The response of a host transaction, `(RDATA, RESP)` with RESP OK or ERR (R103). -/
structure Resp where
  rdata : HostWord
  err : Bool
  deriving DecidableEq, Repr

/-- The frame descriptor handed to the SINK (R97). -/
structure Descriptor where
  height : Nat
  width : Nat
  x : BitVec 16
  y : BitVec 16
  pixels : List Cell16
  deriving DecidableEq, Repr

/-- The events of the history (R83), under the spec's names. -/
inductive Event where
  | csAssert
  | xfer (tx rx : Byte)
  | csDeassert
  | tpDisable
  | tpEnable
  | delayReq (us : Nat)
  | delayElapsed
  | presentReq (desc : Descriptor)
  | presentReturned
  | host (req : HostReq) (resp : Resp)
  | errEvent (code : BitVec 4)
  deriving DecidableEq, Repr

/-- One agent's step in the interleaving (R5, R76, R80). TRANSPORT answers inside PKT_RECV. -/
inductive Turn where
  /-- CORE performs the operation its dispatch word selects, or holds. -/
  | core
  /-- HOST issues this request. -/
  | host (req : HostReq)
  /-- DELAY signals `elapsed`. -/
  | elapsed
  /-- SINK signals `returned`. -/
  | returned
  deriving DecidableEq, Repr

/-- The state: the elements of R43, then the model's own fields (`turns`, `rxIn`, `draws`,
`params`). -/
structure State where
  /-- PHASE (R20). -/
  phase : BitVec 4
  /-- J (R22). -/
  j : BitVec 6
  /-- RESYNC_CNT (R23). -/
  resyncCnt : HostWord
  /-- WRONGSEG_CNT (R24). -/
  wrongsegCnt : HostWord
  /-- ZERO_CNT (R25). -/
  zeroCnt : HostWord
  /-- RANGE_MIN (R27). -/
  rangeMin : BitVec 16
  /-- RANGE_MAX (R28). -/
  rangeMax : BitVec 16
  /-- RANGE_CTRL: bit 0 AUTO_MIN, bit 1 AUTO_MAX (R29). -/
  rangeCtrl : BitVec 2
  /-- SCALE_SPAN (R30). -/
  scaleSpan : BitVec 16
  /-- MIN_L (R31). -/
  minL : BitVec 16
  /-- SCALE_HELD (R32). -/
  scaleHeld : Bool
  /-- TP_EN (R33). -/
  tpEn : Bool
  /-- LAST_SEGID (R34). -/
  lastSegid : BitVec 3
  /-- EVT (R35). -/
  evt : BitVec 4
  /-- PRES_ORIGIN (R36). -/
  presOrigin : HostWord
  /-- RXPKT, STAGING, SEGSTORE, TFRAME, DFRAME and PALETTE (R60 to R65), each in its window (R66). -/
  mem : Memory
  /-- DELAY has signalled `elapsed` and no step has consumed it (R42). -/
  elapsedSig : Bool
  /-- SINK has signalled `returned` and no step has consumed it (R42). -/
  returnedSig : Bool
  /-- The event history, oldest first (R83). -/
  history : List Event
  /-- The model's own: the agents' steps still to come, next first; then CORE alone (log 1). -/
  turns : List Turn
  /-- The model's own: the bytes TRANSPORT answers next, then free values (log 4). -/
  rxIn : List Byte
  /-- The model's own: how many free values have been drawn (log 5). -/
  draws : Nat
  /-- The model's own: the open parameters of R7, which no step changes (log 6, log 7). -/
  params : Config.Params
  deriving DecidableEq, Repr

/-- The reasons a step stops with a fault. No run from reset meets one (R100, R220); each stands for
a state that the spec rules out, and is safe. -/
inductive Fault where
  /-- Raised by `step`: PHASE is 0x9 to 0xF (R100: a model "must treat the state as a fault"). Safe. -/
  | reservedPhase
  /-- Raised by PKT_ACCEPT: J is 60 or more and STAGING has no slot J (R22, R61). Safe (log 12). -/
  | noStagingSlot
  /-- Raised by SEG_COMMIT: the identifier is not 1 to 4 and SEGSTORE has no such buffer (R62, R141).
  Safe (log 12). -/
  | noSegmentBuffer
  /-- Raised by COLORIZE: SCALE_SPAN is 0 and 255 / SCALE_SPAN has no value (R30, R172, R179). Safe
  (log 12). -/
  | zeroSpan
  deriving DecidableEq, Repr

/-- The reasons a step is refused. Every operation has a meaning, so nothing raises one. -/
inductive Refusal where
  /-- Raised by an arm of `exec` whose instruction has no meaning yet: none has. Safe. -/
  | notModelled (mnemonic : String)
  deriving DecidableEq, Repr

/-- The block right after reset, R250 element by element; the model's own fields as the logs 1, 4, 5,
6 and 7 say. -/
def State.reset : State where
  phase := 0
  j := 0
  resyncCnt := 0
  wrongsegCnt := 0
  zeroCnt := 0
  rangeMin := 30000
  rangeMax := 32000
  rangeCtrl := 0x3
  scaleSpan := 2000
  minL := 30000
  scaleHeld := false
  tpEn := true
  lastSegid := 0
  evt := 0
  presOrigin := 0
  mem := []
  elapsedSig := false
  returnedSig := false
  history := []
  turns := []
  rxIn := []
  draws := 0
  params := Config.defaultParams

end Sys2Proof.Machine
end

