-- ==== Sys2Proof/Machine/Ops.lean ====
section
/-! DEFINITION. The named operations over memory and registers that the meanings share: reading and
writing bytes, the event history, record_event, the interface primitives, the scale latch. -/

namespace Sys2Proof.Machine

/-! ### Memory -/

/-- What an unlisted address reads as: the reset contents. PALETTE holds the identity grey ramp,
PALETTE[3v+c] = v (R65); every other byte is 0 (R60 to R64, R250). -/
def Memory.unlisted (a : Nat) : Byte :=
  if 0x01000 ≤ a ∧ a < 0x01300 then BitVec.ofNat 8 ((a - 0x01000) / 3) else 0

/-- The canonical form: addresses strictly rising, and no entry equal to what an unlisted address
reads as. -/
abbrev Memory.wf (m : Memory) : Prop :=
  m.Pairwise (fun c d => c.1 < d.1) ∧ ∀ c ∈ m, c.2 ≠ Memory.unlisted c.1

/-- The entries at address `a` and above. -/
def Memory.upFrom (m : Memory) (a : Nat) : Memory := m.dropWhile fun c => decide (c.1 < a)

/-- The entries below address `a`. -/
def Memory.below (m : Memory) (a : Nat) : Memory := m.takeWhile fun c => decide (c.1 < a)

/-- The `n` bytes from address `a`, lowest address first, in one walk over the memory. -/
def Memory.load (m : Memory) (a : Nat) : Nat → List Byte
  | 0 => []
  | n + 1 =>
    match m.upFrom a with
    | [] => Memory.unlisted a :: Memory.load [] (a + 1) n
    | (k, v) :: rest =>
      if k = a then v :: Memory.load rest (a + 1) n
      else Memory.unlisted a :: Memory.load ((k, v) :: rest) (a + 1) n

/-- The byte at address `a`. -/
def Memory.read (m : Memory) (a : Nat) : Byte :=
  match m.upFrom a with
  | [] => Memory.unlisted a
  | (k, v) :: _ => if k = a then v else Memory.unlisted a

/-- The entries of the bytes `bs` laid from address `a`: those that differ from what an unlisted
address reads as. -/
def Memory.entries (a : Nat) : List Byte → Memory
  | [] => []
  | b :: rest =>
    if b = Memory.unlisted a then Memory.entries (a + 1) rest
    else (a, b) :: Memory.entries (a + 1) rest

/-- The memory with the bytes `bs` written from address `a` on. -/
def Memory.store (m : Memory) (a : Nat) (bs : List Byte) : Memory :=
  m.below a ++ (Memory.entries a bs ++ m.upFrom (a + bs.length))

/-- The 16-bit cell at address `a`, low-order byte first (R67). -/
def Memory.cell (m : Memory) (a : Nat) : Cell16 := m.read (a + 1) ++ m.read a

/-! ### The event history (R83) and the interface primitives (R11) -/

/-- Append events to the history, in order (R83). -/
def State.emit (s : State) (es : List Event) : State := { s with history := s.history ++ es }

/-- Pass control to another phase (R20). -/
def State.goto (s : State) (p : BitVec 4) : State := { s with phase := p }

/-- `record_event(code)`: EVT takes the code and `ERR_EVENT(code)` is appended (R222). Every absorbed
error enters its handling through this one operation (R221, R226). -/
def State.recordEvent (s : State) (code : BitVec 4) : State :=
  { s with evt := code, history := s.history ++ [.errEvent code] }

/-- `delay_us(n)`: ask DELAY for a pause (R11). -/
def State.delayUs (s : State) (n : Nat) : State := s.emit [.delayReq n]

/-- The bytes TRANSPORT answers to the next `n` transceives: the bytes the environment has laid out,
then free values (R11, log 4). -/
def State.rxBytes (s : State) (n : Nat) : List Byte :=
  s.rxIn.take n ++ (List.range (n - s.rxIn.length)).map fun i => Config.freeByte (s.draws + i)

/-- The state after TRANSPORT has answered `n` transceives. -/
def State.rxTaken (s : State) (n : Nat) : State :=
  { s with rxIn := s.rxIn.drop n, draws := s.draws + (n - s.rxIn.length) }

/-- `n` free bytes, drawn independently (R11, R73, log 5). -/
def State.freeBytes (s : State) (n : Nat) : List Byte :=
  (List.range n).map fun i => Config.freeByte (s.draws + i)

/-! ### The phases' names (R20) -/

abbrev phAcq : BitVec 4 := 0x0
abbrev phCheck : BitVec 4 := 0x1
abbrev phResyncWait : BitVec 4 := 0x2
abbrev phRecoverWait : BitVec 4 := 0x3
abbrev phSegCheck : BitVec 4 := 0x4
abbrev phComposite : BitVec 4 := 0x5
abbrev phRangeWait : BitVec 4 := 0x6
abbrev phColorize : BitVec 4 := 0x7
abbrev phPresentWait : BitVec 4 := 0x8

/-! ### The event codes' names (R221) -/

abbrev evPktMisalign : BitVec 4 := 1
abbrev evBusRecovery : BitVec 4 := 2
abbrev evSegInvalid : BitVec 4 := 3
abbrev evSampleSentinel : BitVec 4 := 4
abbrev evSpanDegenerate : BitVec 4 := 5

/-! ### Scale (R170) -/

/-- SCALE_LATCH (R170): take the new span, or hold the old one and record SPAN_DEGENERATE; MIN_L takes
RANGE_MIN in both cases. -/
def State.scaleLatch (s : State) : State :=
  if s.rangeMin.toNat < s.rangeMax.toNat then
    { s with scaleSpan := s.rangeMax - s.rangeMin, scaleHeld := false, minL := s.rangeMin }
  else
    { s.recordEvent evSpanDegenerate with scaleHeld := true, minL := s.rangeMin }

/-! ### Palette lookup and colour (R173, R174) -/

/-- The palette byte of channel `c` for a normalised value (R95, R173). -/
def paletteByte (m : Memory) (v : Int) (c : Nat) : Byte := m.read (paletteAddr (paletteOffset v c))

/-- The colour of a normalised value: lookup (R173), then pack565 (R96). -/
def colorOfNorm (m : Memory) (v : Int) : Cell16 :=
  pack565 (paletteByte m v 0) (paletteByte m v 1) (paletteByte m v 2)

/-- COLOR(raw) (R174), with the latched span and minimum. -/
def State.color (s : State) (raw : Cell16) : Cell16 := colorOfNorm s.mem (normOf s.minL s.scaleSpan raw)

end Sys2Proof.Machine
end

