-- ==== Sys2Proof/Machine/Flags.lean ====
section
/-! DEFINITION. The bits computed from the state: the dispatch word's M, T, V and K (R98) and the
STATUS word (R38). -/

namespace Sys2Proof.Machine

/-- M: RXPKT[1] = zext_8(J) (R98, R91). -/
def State.bitM (s : State) : Bool := s.mem.read (rxpktAddr 1) == s.j.setWidth 8

/-- T: RESYNC_CNT = RESYNC_THRESHOLD (R98). -/
def State.bitT (s : State) : Bool := s.resyncCnt == Config.resyncThreshold

/-- The identifier the Segment Assembler inspects: STAGING[20][0][7:4] (R92). -/
def State.stagedSegid (s : State) : BitVec 4 := segidOf (s.mem.read (stagingAddr 20 0))

/-- V: 1 <= STAGING[20][0][7:4] <= 4 (R98). -/
def State.bitV (s : State) : Bool := segidValid s.stagedSegid

/-- K: a DELAY `elapsed` or SINK `returned` signal is pending (R98, R42). -/
def State.bitK (s : State) : Bool := s.elapsedSig || s.returnedSig

/-- The dispatch word D (R98): bits 15:9 and 7 are 0. -/
def State.dispatchWord (s : State) : DispatchWord :=
  (0#7 ++ BitVec.ofBool s.bitK ++ 0#1 ++ BitVec.ofBool s.bitV ++ BitVec.ofBool s.bitT
    ++ BitVec.ofBool s.bitM ++ s.phase : BitVec 16)

/-- RANGE_REQ: 1 exactly when PHASE = RANGE_WAIT (R38). -/
def State.rangeReq (s : State) : Bool := s.phase == phRangeWait

/-- The STATUS word (R38), a view with no storage of its own. -/
def State.statusWord (s : State) : HostWord :=
  (0#4 ++ s.evt ++ 0#2 ++ s.j ++ 0#5 ++ s.lastSegid ++ 0#1 ++ BitVec.ofBool s.scaleHeld
    ++ BitVec.ofBool s.tpEn ++ BitVec.ofBool s.rangeReq ++ s.phase : BitVec 32)

/-- Auto-ranging is on: AUTO_MIN or AUTO_MAX is 1 (R29, R155). -/
def State.autoRange (s : State) : Bool := s.rangeCtrl.getLsbD 0 || s.rangeCtrl.getLsbD 1

end Sys2Proof.Machine
end

