-- ==== Sys2Proof/Machine/Assembler.lean ====
section
/-! DEFINITION. The Segment Assembler's two operations (spec/41_segment_assembler.md). -/

namespace Sys2Proof.Machine

/-- SEG_REJECT (R140): count, record SEG_INVALID, start a new attempt; nothing is stored. -/
def execSegReject (s : State) : Host.Outcome State Fault Refusal :=
  let t := { s with wrongsegCnt := s.wrongsegCnt + 1 }
  .next ((t.recordEvent evSegInvalid).goto phAcq)

/-- SEG_COMMIT (R141): copy the 60 staged packets verbatim into the identifier's buffer, signal the
identifier, and go on to COMPOSITE after identifier 4. SEGSTORE has buffers for 1 to 4 only (R62). -/
def execSegCommit (s : State) : Host.Outcome State Fault Refusal :=
  let g := s.stagedSegid
  if segidValid g then
    .next { s with
      wrongsegCnt := 0
      mem := s.mem.store (segstoreAddr (g.toNat - 1) 0 0) (s.mem.load (stagingAddr 0 0) 9840)
      lastSegid := g.setWidth 3
      phase := if g = 4 then phComposite else phAcq }
  else .fault .noSegmentBuffer

end Sys2Proof.Machine
end

