-- ==== Sys2Proof/Machine/Compositor.lean ====
section
/-! DEFINITION. The payload decoder's one operation (spec/42_payload_decoder.md). -/

namespace Sys2Proof.Machine

/-- What a pass carries from packet to packet: the memory, ZERO_CNT and the pseudocode's `dropped`
(R150). -/
structure PassData where
  mem : Memory
  zeroCnt : HostWord
  dropped : Bool
  deriving DecidableEq, Repr

/-- One packet of the pass (R150): the header words are skipped (R152); the samples before the first
sentinel go to consecutive columns of the packet's half-row (R154, R94); a sentinel abandons the rest
of the packet and is counted once (R153). -/
def passPacket (d : PassData) (s p : Nat) : PassData :=
  let words := payloadOf (d.mem.load (segstoreAddr (s - 1) p 0) 164)
  let kept := keptOf words
  let mem := d.mem.store (cellAddr tframeBase (rowOf s p) (colOf p 0)) (bytesOfCells kept)
  if kept.length < words.length then
    { mem := mem, zeroCnt := d.zeroCnt + 1, dropped := true }
  else { d with mem := mem }

/-- The pass over all four stored segments, in the order of R151. -/
def compositePass (d : PassData) : PassData := passOrder.foldl (fun d sp => passPacket d sp.1 sp.2) d

/-- COMPOSITE (R150): the pass; SAMPLE_SENTINEL once if a packet dropped; then RANGE_WAIT if
auto-ranging is on, else the scale latch and COLORIZE (R155). -/
def execComposite (s : State) : Host.Outcome State Fault Refusal :=
  let d := compositePass { mem := s.mem, zeroCnt := s.zeroCnt, dropped := false }
  let t := { s with mem := d.mem, zeroCnt := d.zeroCnt }
  let t := if d.dropped then t.recordEvent evSampleSentinel else t
  .next (if s.autoRange then t.goto phRangeWait else t.scaleLatch.goto phColorize)

end Sys2Proof.Machine
end

