-- ==== Sys2Proof/Machine/HostPort.lean ====
section
/-! DEFINITION. The host transactions (spec/44_host_interface.md). -/

namespace Sys2Proof.Machine

/-- The response ERR; a read that returns ERR returns RDATA = 0 (R103). -/
def Resp.error : Resp := { rdata := 0, err := true }

/-- The response OK with a read's data (R103). -/
def Resp.ok (v : HostWord) : Resp := { rdata := v, err := false }

/-- A memory window of the host map, with the phase in which reading it is a draw (R66, R73). -/
structure Window where
  base : Nat
  size : Nat
  drawPhase : Option (BitVec 4)
  deriving DecidableEq, Repr

/-- An address is inside the window. -/
def Window.holds (w : Window) (a : Nat) : Bool := w.base ≤ a && a < w.base + w.size

/-- The six windows of R66 with the phases of R73: PALETTE, RXPKT, SEGSTORE, STAGING, TFRAME, DFRAME. -/
def windows : List Window :=
  [ ⟨0x01000, 768, none⟩,
    ⟨0x08000, 164, some phAcq⟩,
    ⟨0x10000, 39360, some phSegCheck⟩,
    ⟨0x20000, 9840, some phCheck⟩,
    ⟨0x30000, 38400, some phComposite⟩,
    ⟨0x40000, 38400, some phColorize⟩ ]

/-- The value of the register at an offset (R37), or none where the offset is reserved (R39). CMD
reads 0 (R104); reserved bits read 0 (R39). -/
def State.register (s : State) (off : Nat) : Option HostWord :=
  match off with
  | 0x000 => some s.statusWord
  | 0x004 => some (s.rangeCtrl.setWidth 32)
  | 0x008 => some (s.rangeMin.setWidth 32)
  | 0x00C => some (s.rangeMax.setWidth 32)
  | 0x010 => some (s.scaleSpan.setWidth 32)
  | 0x014 => some (s.minL.setWidth 32)
  | 0x018 => some 0
  | 0x01C => some s.presOrigin
  | 0x020 => some s.resyncCnt
  | 0x024 => some s.wrongsegCnt
  | 0x028 => some s.zeroCnt
  | _ => none

/-- The four bytes of memory at an address as a host word (R68). -/
def Memory.hostWord (m : Memory) (a : Nat) : HostWord :=
  hostWordOf (m.read a) (m.read (a + 1)) (m.read (a + 2)) (m.read (a + 3))

/-- A host word of four bytes drawn independently (R73). -/
def State.drawnWord (s : State) : HostWord :=
  hostWordOf (Config.freeByte s.draws) (Config.freeByte (s.draws + 1))
    (Config.freeByte (s.draws + 2)) (Config.freeByte (s.draws + 3))

/-- R200, the response of a read of address `a`, and the state after it: only the count of draws can
change (R71). -/
def State.hostLoad (s : State) (a : Nat) : Resp × State :=
  if a % 4 ≠ 0 then (Resp.error, s)
  else if a < 0x01000 then
    match s.register a with
    | some v => (Resp.ok v, s)
    | none => (Resp.error, s)
  else
    match windows.find? (·.holds a) with
    | none => (Resp.error, s)
    | some w =>
      if w.drawPhase = some s.phase then (Resp.ok s.drawnWord, { s with draws := s.draws + 4 })
      else (Resp.ok (s.mem.hostWord a), s)

/-- R202, `CMD(code)`: code 0x01 in RANGE_WAIT has the CORE effect of R175; any other write to CMD
has none. -/
def State.command (s : State) (code : Byte) : Resp × State :=
  if code = 0x01 ∧ s.phase = phRangeWait then (Resp.ok 0, s.scaleLatch.goto phColorize)
  else (Resp.error, s)

/-- R201, the response of a write to address `a`, and the state after it. -/
def State.hostStore (s : State) (a : Nat) (v : HostWord) : Resp × State :=
  if a % 4 ≠ 0 then (Resp.error, s)
  else if a = 0x004 then (Resp.ok 0, { s with rangeCtrl := v.extractLsb' 0 2 })
  else if a = 0x008 then (Resp.ok 0, { s with rangeMin := v.extractLsb' 0 16 })
  else if a = 0x00C then (Resp.ok 0, { s with rangeMax := v.extractLsb' 0 16 })
  else if a = 0x01C then (Resp.ok 0, { s with presOrigin := v })
  else if a = 0x018 then s.command (v.extractLsb' 0 8)
  else if 0x01000 ≤ a ∧ a ≤ 0x012FC then
    if s.phase = phColorize then (Resp.error, s)
    else (Resp.ok 0, { s with mem := s.mem.store a (bytesOfHostWord v) })
  else (Resp.error, s)

/-- A transaction is complete when its response is returned (R77): `HOST(req, resp)` is appended
after whatever the transaction itself recorded (R83, log 9). -/
def completeHost (req : HostReq) (r : Resp × State) : State := r.2.emit [.host req r.1]

/-- HOST_READ (R200). -/
def execHostRead (addr : HostAddr) (wdata : HostWord) (s : State) :
    Host.Outcome State Fault Refusal :=
  .next (completeHost (hostReq 0 addr wdata) (s.hostLoad addr.toNat))

/-- HOST_WRITE (R201). -/
def execHostWrite (addr : HostAddr) (wdata : HostWord) (s : State) :
    Host.Outcome State Fault Refusal :=
  .next (completeHost (hostReq 1 addr wdata) (s.hostStore addr.toNat wdata))

/-- CMD_RANGE_DONE (R202): `CMD(0x01)`. -/
def execCmdRangeDone (wdataHi : BitVec 24) (s : State) : Host.Outcome State Fault Refusal :=
  .next (completeHost (hostReq 1 0x00018 (rangeDoneData wdataHi)) (s.command 0x01))

end Sys2Proof.Machine
end

