-- ==== Sys2Proof/Machine/Quantizer.lean ====
section
/-! DEFINITION. The Colormap Quantizer's operations (spec/43_colormap_quantizer.md). -/

namespace Sys2Proof.Machine

/-- The 19200 cells of the frame at `base`, row-major (R63, R64, R67). -/
def Memory.frame (m : Memory) (base : Nat) : List Cell16 := cellsOfBytes (m.load base 38400)

/-- DFRAME after the colour pass, row-major: COLOR(raw) where the TFRAME cell is not 0, else the cell
as it was (R177). -/
def State.colored (s : State) : List Cell16 :=
  List.zipWith (fun raw old => if raw = 0 then old else s.color raw)
    (s.mem.frame tframeBase) (s.mem.frame dframeBase)

/-- The frame descriptor for these pixels (R97). -/
def State.descriptor (s : State) (pixels : List Cell16) : Descriptor :=
  { height := 120, width := 160,
    x := s.presOrigin.extractLsb' 0 16, y := s.presOrigin.extractLsb' 16 16, pixels := pixels }

/-- COLORIZE (R177): colour every non-zero TFRAME cell into DFRAME and hand the frame to the SINK.
SCALE_SPAN is at least 1 at all times (R30, R179); with 0 there is no scale. -/
def execColorize (s : State) : Host.Outcome State Fault Refusal :=
  if s.scaleSpan = 0 then .fault .zeroSpan
  else
    let px := s.colored
    .next { s.emit [.presentReq (s.descriptor px)] with
      mem := s.mem.store dframeBase (bytesOfCells px), phase := phPresentWait }

/-- PRESENT_DONE (R178): consume the returned signal and acquire again. -/
def execPresentDone (s : State) : Host.Outcome State Fault Refusal :=
  .next { s with returnedSig := false, phase := phAcq }

end Sys2Proof.Machine
end

