-- ==== Sys2Proof/Machine/Synchronizer.lean ====
section
/-! DEFINITION. The Packet Synchronizer's six operations (spec/40_synchronizer.md). -/

namespace Sys2Proof.Machine

/-- PKT_RECV (R120): one RawPacket into RXPKT, framed by one chip-select pair, each byte a draw. -/
def execPktRecv (s : State) : Host.Outcome State Fault Refusal :=
  let rx := s.rxBytes 164
  let t := (s.rxTaken 164).emit
    (.csAssert :: (rx.map fun b => .xfer Config.dummyTx b) ++ [.csDeassert])
  .next { t with mem := s.mem.store (rxpktAddr 0) rx, phase := phCheck }

/-- PKT_ACCEPT (R121): RXPKT into STAGING[J]; J advances, or returns to 0 after 59 with the attempt
complete; RESYNC_CNT is cleared under ON_ACCEPT (R126). STAGING has slots 0 to 59 only (R61). -/
def execPktAccept (s : State) : Host.Outcome State Fault Refusal :=
  if 60 ≤ s.j.toNat then .fault .noStagingSlot
  else
    let t : State :=
      { s with
        mem := s.mem.store (stagingAddr s.j.toNat 0) (s.mem.load (rxpktAddr 0) 164)
        resyncCnt := match s.params.clearPolicy with
          | .onAccept => 0
          | .recoveryOnly => s.resyncCnt }
    if s.j.toNat = 59 then .next { t with j := 0, phase := phSegCheck }
    else .next { t with j := s.j + 1, phase := phAcq }

/-- PKT_MISMATCH (R122): discard, J <- 0, count, record PKT_MISALIGN, ask for the inter-retry delay. -/
def execPktMismatch (s : State) : Host.Outcome State Fault Refusal :=
  let t := { s with j := 0, resyncCnt := s.resyncCnt + 1 }
  .next (((t.recordEvent evPktMisalign).delayUs s.params.resyncDelayUs).goto phResyncWait)

/-- RESYNC_RESUME (R123): consume the elapsed signal and acquire again. -/
def execResyncResume (s : State) : Host.Outcome State Fault Refusal :=
  .next { s with elapsedSig := false, phase := phAcq }

/-- BUS_RECOVER_BEGIN (R124): transport off, both diagnostic counters cleared, the 750 ms delay. -/
def execBusRecoverBegin (s : State) : Host.Outcome State Fault Refusal :=
  let t := { s.emit [.tpDisable] with
    elapsedSig := false, tpEn := false, wrongsegCnt := 0, zeroCnt := 0 }
  .next (((t.recordEvent evBusRecovery).delayUs Config.recoveryDelayUs).goto phRecoverWait)

/-- BUS_RECOVER_END (R125): transport on, RESYNC_CNT cleared, acquisition continues. -/
def execBusRecoverEnd (s : State) : Host.Outcome State Fault Refusal :=
  .next { s.emit [.tpEnable] with
    elapsedSig := false, tpEn := true, resyncCnt := 0, phase := phAcq }

end Sys2Proof.Machine
end

