-- ==== Sys2Proof/Machine/Dispatch.lean ====
section
/-! DEFINITION. One arm per row of spec/opcode_table.json, each a call of its meaning. -/

namespace Sys2Proof.Machine

/-- The effect of one operation on a state. -/
def exec (i : Instr) (s : State) : Host.Outcome State Fault Refusal :=
  match i with
  | .pktRecv => Sys2Proof.Machine.execPktRecv s
  | .pktAccept => Sys2Proof.Machine.execPktAccept s
  | .pktMismatch => Sys2Proof.Machine.execPktMismatch s
  | .resyncResume => Sys2Proof.Machine.execResyncResume s
  | .busRecoverBegin => Sys2Proof.Machine.execBusRecoverBegin s
  | .busRecoverEnd => Sys2Proof.Machine.execBusRecoverEnd s
  | .segReject => Sys2Proof.Machine.execSegReject s
  | .segCommit => Sys2Proof.Machine.execSegCommit s
  | .composite => Sys2Proof.Machine.execComposite s
  | .colorize => Sys2Proof.Machine.execColorize s
  | .presentDone => Sys2Proof.Machine.execPresentDone s
  | .hostRead addr wdata => Sys2Proof.Machine.execHostRead addr wdata s
  | .hostWrite addr wdata => Sys2Proof.Machine.execHostWrite addr wdata s
  | .cmdRangeDone wdataHi => Sys2Proof.Machine.execCmdRangeDone wdataHi s

end Sys2Proof.Machine
end

