-- ==== Sys2Proof/Machine/Turns.lean ====
section
/-! DEFINITION. One agent's step (R5, R80): the CORE's, through the dispatch word; a HOST request; the
signals of DELAY and SINK. And how a table word is laid where the CORE or the host port selects it. -/

namespace Sys2Proof.Machine

/-- A `delay_us` is pending: the CORE waits in RESYNC_WAIT or RECOVER_WAIT and DELAY has not
signalled (R11, R42, R80). -/
def State.delayPending (s : State) : Bool :=
  (s.phase == phResyncWait || s.phase == phRecoverWait) && !s.elapsedSig

/-- A `present` is pending: the CORE waits in PRESENT_WAIT and SINK has not signalled (R11, R42, R80). -/
def State.presentPending (s : State) : Bool := s.phase == phPresentWait && !s.returnedSig

/-- DELAY's step: it signals `elapsed` and the history records DELAY_ELAPSED (R42, R83, log 8). With
no delay pending the step is not enabled (R80) and nothing happens (log 3). -/
def State.delayTurn (s : State) : State :=
  if s.delayPending then { s.emit [.delayElapsed] with elapsedSig := true } else s

/-- SINK's step: it signals `returned` and the history records PRESENT_RETURNED (R42, R83, log 8).
With no present pending the step is not enabled (R80) and nothing happens (log 3). -/
def State.sinkTurn (s : State) : State :=
  if s.presentPending then { s.emit [.presentReturned] with returnedSig := true } else s

/-- CORE's step: the operation its dispatch word selects (R99). With no row the CORE holds: no state
changes (R101, log 2). -/
def coreTurn (s : State) : Host.Outcome State Fault Refusal :=
  match decodeDispatch s.dispatchWord with
  | .ok i => exec i s
  | .error .reservedPhase => .fault .reservedPhase
  | .error _ => .next s

/-- The state once the next turn is taken off the interleaving. -/
def State.popTurn (s : State) : State := { s with turns := s.turns.tail }

/-- The step of the agent whose turn is next; with no turn laid out it is CORE's (log 1). -/
def agentTurn (s : State) : Host.Outcome State Fault Refusal :=
  match s.turns.head? with
  | none => coreTurn s
  | some .core => coreTurn s.popTurn
  | some (.host q) => exec (decodeHost q) s.popTurn
  | some .elapsed => .next s.popTurn.delayTurn
  | some .returned => .next s.popTurn.sinkTurn

/-- A byte that is, or is not, zext_8(J): what RXPKT[1] must hold for M to be `m`. -/
def seqByteFor (j : BitVec 6) (m : Bool) : Byte := if m then j.setWidth 8 else j.setWidth 8 + 1

/-- The state whose dispatch word is `d` (bits 15:9 and 7 apart, which are always 0, R98): PHASE is
set, and M, T, V and K where they differ, through RXPKT[1], RESYNC_CNT, STAGING[20][0] and the two
signals; and CORE's turn is next. -/
def State.placeDispatch (s : State) (d : DispatchWord) : State :=
  let m := d.getLsbD 4
  let t := d.getLsbD 5
  let v := d.getLsbD 6
  let k := d.getLsbD 8
  let mem := if s.bitM = m then s.mem else s.mem.store (rxpktAddr 1) [seqByteFor s.j m]
  let mem := if s.bitV = v then mem
    else mem.store (stagingAddr 20 0) [if v then 0x10 else 0x00]
  { s with
    phase := d.extractLsb' 0 4
    mem := mem
    resyncCnt := if s.bitT = t then s.resyncCnt else if t then Config.resyncThreshold else 0
    elapsedSig := if s.bitK = k then s.elapsedSig else k && d.extractLsb' 0 4 != phPresentWait
    returnedSig := if s.bitK = k then s.returnedSig else k && d.extractLsb' 0 4 == phPresentWait
    turns := .core :: s.turns }

/-- The state whose next turn is the HOST's with request `q`. A reserved PHASE would fault before it
(R100), so such a phase becomes ACQ. -/
def State.placeHost (s : State) (q : HostReq) : State :=
  { s with
    phase := if phaseReserved s.phase then phAcq else s.phase
    turns := .host q :: s.turns }

/-- A table word placed where the next step selects it. -/
def State.placeWord (s : State) (nbits w : Nat) : State :=
  match tableCodeWord nbits w with
  | .ok (.dispatch d) => s.placeDispatch d
  | .ok (.host q) => s.placeHost q
  | .error _ => s

end Sys2Proof.Machine
end

