-- ==== Sys2Proof/Machine/Step.lean ====
section
/-! DEFINITION. The step: one agent's step of the interleaving (R76, R80). -/

namespace Sys2Proof.Machine

/-- One step. A reserved PHASE is a fault whoever's turn it is (R100). -/
def step (s : State) : Host.Outcome State Fault Refusal :=
  if phaseReserved s.phase then .fault .reservedPhase else agentTurn s

/-- `s` with the operation of a table word selected for the very next step (log 16). -/
def State.withFetchWord (s : State) (nbits w : Nat) : State := s.placeWord nbits w

end Sys2Proof.Machine
end

