-- ==== Sys2Proof/Safety.lean ====
section
/-! DEFINITION. What a legal state is: the ranges and relations the spec states of the state elements,
each named with its rule. Every one holds at reset and is claimed to be kept by every step. -/

namespace Sys2Proof.Machine

/-- CORE is the agent whose turn is next: its turn is laid out, or none is (log 1). -/
def State.coreNext (s : State) : Prop := s.turns = [] ∨ s.turns.head? = some .core

/-- A byte address inside one of the six windows of R66. -/
def mapped (a : Nat) : Bool := windows.any (·.holds a)

/-- SEGSTORE[k] has not been written since reset: all its bytes are 0 (R62). -/
def bufferEmpty (m : Memory) (k : Nat) : Prop := ∀ i < 9840, m.read (segstoreAddr k 0 i) = 0

/-- SEGSTORE[k] holds one complete attempt: SEQ p in packet p for p = 0 to 59, and the telemetry
packet's identifier is k + 1 (R143). -/
def bufferComplete (m : Memory) (k : Nat) : Prop :=
  (∀ p < 60, m.read (segstoreAddr k p 1) = BitVec.ofNat 8 p) ∧
  (segidOf (m.read (segstoreAddr k 20 0))).toNat = k + 1

/-- The legal states. -/
structure Legal (s : State) : Prop where
  /-- memory is in canonical form -/
  memoryWf : s.mem.wf
  /-- memory lists only addresses that exist (R66) -/
  memoryMapped : ∀ c ∈ s.mem, mapped c.1 = true
  /-- PHASE is never a reserved code (R100) -/
  phaseLegal : s.phase.toNat ≤ 8
  /-- J holds a value from 0 to 59 (R22) -/
  jRange : s.j.toNat ≤ 59
  /-- J is 0 outside ACQ and CHECK (R122, R124, R140, R141, R178) -/
  jZero : s.phase ≠ phAcq → s.phase ≠ phCheck → s.j = 0
  /-- RESYNC_CNT never exceeds 750 (R23) -/
  resyncBound : s.resyncCnt.toNat ≤ 750
  /-- RESYNC_CNT is 750 only on the way into and during recovery (R122, R124, R125) -/
  resyncFull : s.resyncCnt = 750 → s.phase = phResyncWait ∨ s.phase = phRecoverWait
  /-- RESYNC_CNT stays 750 during RECOVER_WAIT (R124) -/
  resyncRecover : s.phase = phRecoverWait → s.resyncCnt = 750
  /-- SCALE_SPAN is always from 1 to 65535 (R30) -/
  spanPositive : s.scaleSpan ≠ 0
  /-- TP_EN is 0 exactly when PHASE = RECOVER_WAIT (R33) -/
  tpEnabled : s.tpEn = false ↔ s.phase = phRecoverWait
  /-- LAST_SEGID is 0 to 4 (R34) -/
  segidRange : s.lastSegid.toNat ≤ 4
  /-- event codes 6 to 15 are never recorded (R221) -/
  evtRange : s.evt.toNat ≤ 5
  /-- an elapsed signal is pending only where a delay was asked for (R42) -/
  elapsedWhere : s.elapsedSig = true → s.phase = phResyncWait ∨ s.phase = phRecoverWait
  /-- a returned signal is pending only where a frame was presented (R42) -/
  returnedWhere : s.returnedSig = true → s.phase = phPresentWait
  /-- STAGING holds the current attempt's accepted packets, and all 60 in SEG_CHECK (R127) -/
  staged : ∀ p < 60, p < s.j.toNat ∨ s.phase = phSegCheck →
    s.mem.read (stagingAddr p 1) = BitVec.ofNat 8 p
  /-- each segment buffer is as reset left it or holds one complete attempt (R143) -/
  stored : ∀ k < 4, bufferEmpty s.mem k ∨ bufferComplete s.mem k
  /-- RESYNC_DELAY_US is greater than 0 (R7) -/
  delayPositive : 0 < s.params.resyncDelayUs

/-- Payload word k of packet p in the stored buffer of segment s: its two bytes, the first the
high-order byte (R90, R93). -/
def storedSample (m : Memory) (s p k : Nat) : Cell16 :=
  m.read (segstoreAddr (s - 1) p (4 + 2 * k)) ++ m.read (segstoreAddr (s - 1) p (5 + 2 * k))

/-- How many of the 240 stored packets hold a zero payload word: what a pass adds to ZERO_CNT (R153). -/
def sentinelPackets (m : Memory) : Nat :=
  (passOrder.filter fun sp => (List.range 80).any fun k => storedSample m sp.1 sp.2 k == 0).length

/-- The machine does not stop at `s`: its step answers a next state. -/
def Runs (s : State) : Prop := ∃ t, step s = .next t

end Sys2Proof.Machine
end

