-- ==== Sys2Proof/Certificates/Slice0/Obligations.lean ====
section
/-! DEFINITION. The statements for the provers. Each `def Obligations.<Name> : Prop` formalises the rules
its docstring names; OBLIGATIONS.json lists them. -/

open Sys2Proof Sys2Proof.Machine

/-! ### Encodings -/

/-- A few words of spec/opcode_table.json, bit by bit, and the operations they stand for (R99, R102). -/
def Obligations.TableWordsDecode : Prop :=
  decodeTableWord 16 0b0000000000000000 = some .pktRecv ∧
  decodeTableWord 16 0b0000000000010001 = some .pktAccept ∧
  decodeTableWord 16 0b0000000100100010 = some .busRecoverBegin ∧
  decodeTableWord 16 0b0000000001000100 = some .segCommit ∧
  decodeTableWord 16 0b0000000000000101 = some .composite ∧
  decodeTableWord 16 0b0000000100001000 = some .presentDone ∧
  decodeTableWord 56 0x00001000000000 = some (.hostRead 0x00010 0) ∧
  decodeTableWord 56 0x10000812340064 = some (.hostWrite 0x00008 0x12340064) ∧
  decodeTableWord 56 0x10001800000001 = some (.cmdRangeDone 0)

/-- R99 over words: a dispatch word that matches a row under its mask, whatever its other bits, decodes
to that row's operation, and a word that matches none decodes to none. -/
def Obligations.DecoderFollowsDispatchTable : Prop :=
  ∀ d : DispatchWord,
    (∀ r ∈ dispatchTable, d &&& r.mask = r.mtch → decode (.dispatch d) = .ok r.op) ∧
    ((∀ r ∈ dispatchTable, d &&& r.mask ≠ r.mtch) → ∀ i, decode (.dispatch d) ≠ .ok i)

/-- R101 over words: a word with a legal PHASE selects no operation exactly in RESYNC_WAIT,
RECOVER_WAIT and PRESENT_WAIT with K = 0, and in RANGE_WAIT; a reserved PHASE is rejected by name. -/
def Obligations.HoldsAreExactlyTheWaits : Prop :=
  ∀ d : DispatchWord,
    (decodeDispatch d = .error .hold ↔
      (((d.extractLsb' 0 4 = phResyncWait ∨ d.extractLsb' 0 4 = phRecoverWait ∨
          d.extractLsb' 0 4 = phPresentWait) ∧ d.getLsbD 8 = false) ∨
        d.extractLsb' 0 4 = phRangeWait)) ∧
    (decodeDispatch d = .error .reservedPhase ↔ 9 ≤ (d.extractLsb' 0 4).toNat)

/-- Decoding an encoded well-formed instruction gives it back, for every operation and every value of
every operand (R99, R102). -/
def Obligations.DecodeOfEncode : Prop :=
  ∀ i : Instr, i.wf = true → decode (encode i) = .ok i

/-- Every 53-bit request is the encoding of the well-formed transaction it decodes to: no bit of a
request is dropped (R102). -/
def Obligations.EncodeOfDecodedRequest : Prop :=
  ∀ q : HostReq, (decodeHost q).wf = true ∧ encode (decodeHost q) = .host q

/-- R102: the fields of a request, the row tried first, and the CMD write that the general write rule
hands to CMD_RANGE_DONE. -/
def Obligations.RequestSelectsTransaction : Prop :=
  (∀ q : HostReq, q.getLsbD 52 = false →
    decodeHost q = .hostRead (q.extractLsb' 32 20) (q.extractLsb' 0 32)) ∧
  (∀ q : HostReq, q.getLsbD 52 = true → q.extractLsb' 32 20 = 0x00018#20 →
    q.extractLsb' 0 8 = 0x01#8 → decodeHost q = .cmdRangeDone (q.extractLsb' 8 24)) ∧
  (∀ q : HostReq, q.getLsbD 52 = true →
    ¬(q.extractLsb' 32 20 = 0x00018#20 ∧ q.extractLsb' 0 8 = 0x01#8) →
    decodeHost q = .hostWrite (q.extractLsb' 32 20) (q.extractLsb' 0 32)) ∧
  (∀ (hi : BitVec 24) (s : State),
    exec (.hostWrite 0x00018 (hi ++ 0x01#8)) s = exec (.cmdRangeDone hi) s)

/-! ### Views of the state -/

/-- R98: the bits of the dispatch word. -/
def Obligations.DispatchWordBits : Prop :=
  ∀ s : State,
    s.dispatchWord.extractLsb' 0 4 = s.phase ∧
    (s.dispatchWord.getLsbD 4 = true ↔ s.mem.read 0x08001 = s.j.setWidth 8) ∧
    (s.dispatchWord.getLsbD 5 = true ↔ s.resyncCnt = 750) ∧
    (s.dispatchWord.getLsbD 6 = true ↔
      1 ≤ ((s.mem.read 0x20CD0).extractLsb' 4 4).toNat ∧
        ((s.mem.read 0x20CD0).extractLsb' 4 4).toNat ≤ 4) ∧
    s.dispatchWord.getLsbD 7 = false ∧
    (s.dispatchWord.getLsbD 8 = true ↔ s.elapsedSig = true ∨ s.returnedSig = true) ∧
    s.dispatchWord.extractLsb' 9 7 = 0#7

/-- R38: the fields of STATUS, its reserved bits, and its value at reset. -/
def Obligations.StatusFields : Prop :=
  (∀ s : State,
    s.statusWord.extractLsb' 0 4 = s.phase ∧
    (s.statusWord.getLsbD 4 = true ↔ s.phase = phRangeWait) ∧
    s.statusWord.getLsbD 5 = s.tpEn ∧
    s.statusWord.getLsbD 6 = s.scaleHeld ∧
    s.statusWord.getLsbD 7 = false ∧
    s.statusWord.extractLsb' 8 3 = s.lastSegid ∧
    s.statusWord.extractLsb' 11 5 = 0#5 ∧
    s.statusWord.extractLsb' 16 6 = s.j ∧
    s.statusWord.extractLsb' 22 2 = 0#2 ∧
    s.statusWord.extractLsb' 24 4 = s.evt ∧
    s.statusWord.extractLsb' 28 4 = 0#4) ∧
  State.reset.statusWord = 0x00000020

/-! ### Reset -/

/-- R250: the value of every state element after reset. -/
def Obligations.ResetValues : Prop :=
  State.reset.phase = phAcq ∧ State.reset.j = 0 ∧ State.reset.resyncCnt = 0 ∧
  State.reset.wrongsegCnt = 0 ∧ State.reset.zeroCnt = 0 ∧ State.reset.rangeMin = 30000 ∧
  State.reset.rangeMax = 32000 ∧ State.reset.rangeCtrl = 0x3 ∧ State.reset.scaleSpan = 2000 ∧
  State.reset.minL = 30000 ∧ State.reset.scaleHeld = false ∧ State.reset.tpEn = true ∧
  State.reset.lastSegid = 0 ∧ State.reset.evt = 0 ∧ State.reset.presOrigin = 0x00000000 ∧
  (∀ i < 164, State.reset.mem.read (rxpktAddr i) = 0) ∧
  (∀ p < 60, ∀ i < 164, State.reset.mem.read (stagingAddr p i) = 0) ∧
  (∀ k < 4, ∀ p < 60, ∀ i < 164, State.reset.mem.read (segstoreAddr k p i) = 0) ∧
  (∀ r < 120, ∀ c < 160, State.reset.mem.cell (cellAddr tframeBase r c) = 0 ∧
    State.reset.mem.cell (cellAddr dframeBase r c) = 0) ∧
  (∀ v < 256, ∀ c < 3, State.reset.mem.read (paletteAddr (3 * v + c)) = BitVec.ofNat 8 v) ∧
  State.reset.elapsedSig = false ∧ State.reset.returnedSig = false ∧ State.reset.history = []

/-- The reset state is legal. -/
def Obligations.ResetIsLegal : Prop := Legal State.reset

/-- R252: after reset the CORE's first step is PKT_RECV, without any host action. (That no turn is laid
out at reset, so that CORE's is next, is the model's choice, log 1.) -/
def Obligations.FirstStepReceivesPacket : Prop :=
  step State.reset = exec .pktRecv State.reset

/-! ### The step -/

/-- A step at CORE's turn runs the operation the dispatch word decodes to, on the state with that turn
taken off (R76, R99). -/
def Obligations.StepRunsDecodedOperation : Prop :=
  ∀ (s : State) (i : Instr), s.phase.toNat ≤ 8 → s.coreNext →
    decode (.dispatch s.dispatchWord) = .ok i → step s = exec i { s with turns := s.turns.tail }

/-- A step at HOST's turn runs the transaction its request decodes to, on the state with that turn
taken off (R76, R80, R102). -/
def Obligations.StepRunsDecodedRequest : Prop :=
  ∀ (s : State) (q : HostReq) (rest : List Turn) (i : Instr), s.phase.toNat ≤ 8 →
    s.turns = .host q :: rest → decode (.host q) = .ok i → step s = exec i { s with turns := rest }

/-- R101: where the dispatch word selects no operation the CORE takes no step: its turn passes and
nothing else changes (that the turn is a step at all is the model's choice, log 2). -/
def Obligations.CoreHoldsWithoutRow : Prop :=
  ∀ s : State, s.coreNext → decode (.dispatch s.dispatchWord) = .error .hold →
    step s = .next { s with turns := s.turns.tail }

/-- R99: the dispatch table; the CORE performs the operation of the row its dispatch word matches; at
most one row matches any word; and the condition column. -/
def Obligations.CoreSelectsByCondition : Prop :=
  dispatchTable =
    [⟨.pktRecv, 0x0000, 0x000F⟩, ⟨.pktAccept, 0x0011, 0x001F⟩, ⟨.pktMismatch, 0x0001, 0x001F⟩,
     ⟨.resyncResume, 0x0102, 0x012F⟩, ⟨.busRecoverBegin, 0x0122, 0x012F⟩,
     ⟨.busRecoverEnd, 0x0103, 0x010F⟩, ⟨.segReject, 0x0004, 0x004F⟩, ⟨.segCommit, 0x0044, 0x004F⟩,
     ⟨.composite, 0x0005, 0x000F⟩, ⟨.colorize, 0x0007, 0x000F⟩, ⟨.presentDone, 0x0108, 0x010F⟩] ∧
  (∀ d : DispatchWord, ∀ r ∈ dispatchTable, ∀ r' ∈ dispatchTable,
    d &&& r.mask = r.mtch → d &&& r'.mask = r'.mtch → r = r') ∧
  ∀ s : State, s.coreNext →
    (∀ r ∈ dispatchTable, s.dispatchWord &&& r.mask = r.mtch → step s = exec r.op s.popTurn) ∧
    (s.phase = phAcq → step s = exec .pktRecv s.popTurn) ∧
    (s.phase = phCheck → s.mem.read (rxpktAddr 1) = s.j.setWidth 8 →
      step s = exec .pktAccept s.popTurn) ∧
    (s.phase = phCheck → s.mem.read (rxpktAddr 1) ≠ s.j.setWidth 8 →
      step s = exec .pktMismatch s.popTurn) ∧
    (s.phase = phResyncWait → s.bitK = true → s.resyncCnt ≠ 750 →
      step s = exec .resyncResume s.popTurn) ∧
    (s.phase = phResyncWait → s.bitK = true → s.resyncCnt = 750 →
      step s = exec .busRecoverBegin s.popTurn) ∧
    (s.phase = phRecoverWait → s.bitK = true → step s = exec .busRecoverEnd s.popTurn) ∧
    (s.phase = phSegCheck → s.bitV = false → step s = exec .segReject s.popTurn) ∧
    (s.phase = phSegCheck → s.bitV = true → step s = exec .segCommit s.popTurn) ∧
    (s.phase = phComposite → step s = exec .composite s.popTurn) ∧
    (s.phase = phColorize → step s = exec .colorize s.popTurn) ∧
    (s.phase = phPresentWait → s.bitK = true → step s = exec .presentDone s.popTurn)

/-- R100: a reserved PHASE is a fault whoever's turn it is, no step writes one, and reset sets none. -/
def Obligations.ReservedPhaseFaults : Prop :=
  (∀ s : State, 9 ≤ s.phase.toNat → step s = .fault .reservedPhase) ∧
  (∀ s t : State, step s = .next t → t.phase.toNat ≤ 8) ∧
  State.reset.phase.toNat ≤ 8

/-- R42, R80: DELAY may signal when a delay is pending and SINK when a present is pending; the signal
makes K one and is recorded (at this step: log 8); a signal that is not due does not happen (its turn
passes: log 3). -/
def Obligations.AgentSignals : Prop :=
  ∀ (s : State) (rest : List Turn), s.phase.toNat ≤ 8 →
    (s.turns = .elapsed :: rest → (s.phase = phResyncWait ∨ s.phase = phRecoverWait) →
      s.elapsedSig = false →
      step s = .next { s with
        turns := rest, elapsedSig := true, history := s.history ++ [.delayElapsed] }) ∧
    (s.turns = .elapsed :: rest →
      ((s.phase ≠ phResyncWait ∧ s.phase ≠ phRecoverWait) ∨ s.elapsedSig = true) →
      step s = .next { s with turns := rest }) ∧
    (s.turns = .returned :: rest → s.phase = phPresentWait → s.returnedSig = false →
      step s = .next { s with
        turns := rest, returnedSig := true, history := s.history ++ [.presentReturned] }) ∧
    (s.turns = .returned :: rest → (s.phase ≠ phPresentWait ∨ s.returnedSig = true) →
      step s = .next { s with turns := rest })

/-! ### Packet Synchronizer -/

/-- R120: the row of PKT_RECV; it completes in every state with sorted memory. RXPKT holds the 164 bytes
received, whatever they are, one chip-select pair frames their 164 transfers of DUMMY_TX, and every
other register and byte stays (`rxIn` and `draws` are the model's own, log 4 and log 5). -/
def Obligations.PktRecvEffect : Prop :=
  (⟨.pktRecv, 0x0000, 0x000F⟩ : DispatchRow) ∈ dispatchTable ∧
  ∀ s : State, s.mem.wf → ∃ (m : Memory) (rx rest : List Byte) (n : Nat), rx.length = 164 ∧
    exec .pktRecv s = .next { s with
      mem := m
      phase := phCheck
      history := s.history ++ .csAssert :: rx.map (fun b => .xfer 0x00 b) ++ [.csDeassert]
      rxIn := rest
      draws := n } ∧
    (∀ i < 164, m.read (rxpktAddr i) = rx.getD i 0) ∧
    (∀ a, a < rxpktAddr 0 ∨ rxpktAddr 164 ≤ a → m.read a = s.mem.read a) ∧ m.wf

/-- The model's own (log 4): the bytes of RXPKT after PKT_RECV are those laid out in `rxIn`, then free
values, one for each byte that is missing. -/
def Obligations.ReceivedBytesAreLaidOutOrFree : Prop :=
  ∀ s : State, s.mem.wf → ∃ t : State, exec .pktRecv s = .next t ∧
    (∀ i < 164, t.mem.read (rxpktAddr i) =
      if i < s.rxIn.length then s.rxIn.getD i 0
      else Config.freeByte (s.draws + (i - s.rxIn.length))) ∧
    t.rxIn = s.rxIn.drop 164 ∧ t.draws = s.draws + (164 - s.rxIn.length)

/-- R121: PKT_ACCEPT copies RXPKT to STAGING[J], advances J or completes the attempt, and clears
RESYNC_CNT under ON_ACCEPT; every other register and byte stays. -/
def Obligations.PktAcceptEffect : Prop :=
  (⟨.pktAccept, 0x0011, 0x001F⟩ : DispatchRow) ∈ dispatchTable ∧
  ∀ s : State, s.mem.wf → s.j.toNat ≤ 59 → ∃ m : Memory,
    exec .pktAccept s = .next { s with
      mem := m
      resyncCnt := if s.params.clearPolicy = .onAccept then 0 else s.resyncCnt
      j := if s.j = 59 then 0 else s.j + 1
      phase := if s.j = 59 then phSegCheck else phAcq } ∧
    (∀ i < 164, m.read (stagingAddr s.j.toNat i) = s.mem.read (rxpktAddr i)) ∧
    (∀ a, a < stagingAddr s.j.toNat 0 ∨ stagingAddr s.j.toNat 164 ≤ a →
      m.read a = s.mem.read a) ∧ m.wf

/-- R122: the whole effect of PKT_MISMATCH; nothing else changes, the packet is stored nowhere. -/
def Obligations.PktMismatchEffect : Prop :=
  (⟨.pktMismatch, 0x0001, 0x001F⟩ : DispatchRow) ∈ dispatchTable ∧
  ∀ s : State, exec .pktMismatch s = .next { s with
    j := 0
    resyncCnt := s.resyncCnt + 1
    evt := 1
    history := s.history ++ [.errEvent 1, .delayReq s.params.resyncDelayUs]
    phase := phResyncWait }

/-- R123: the whole effect of RESYNC_RESUME. -/
def Obligations.ResyncResumeEffect : Prop :=
  (⟨.resyncResume, 0x0102, 0x012F⟩ : DispatchRow) ∈ dispatchTable ∧
  ∀ s : State, exec .resyncResume s = .next { s with elapsedSig := false, phase := phAcq }

/-- R124: the whole effect of BUS_RECOVER_BEGIN; RESYNC_CNT is not cleared. -/
def Obligations.BusRecoverBeginEffect : Prop :=
  (⟨.busRecoverBegin, 0x0122, 0x012F⟩ : DispatchRow) ∈ dispatchTable ∧
  ∀ s : State, exec .busRecoverBegin s = .next { s with
    elapsedSig := false
    tpEn := false
    wrongsegCnt := 0
    zeroCnt := 0
    evt := 2
    history := s.history ++ [.tpDisable, .errEvent 2, .delayReq 750000]
    phase := phRecoverWait }

/-- R125: the whole effect of BUS_RECOVER_END. -/
def Obligations.BusRecoverEndEffect : Prop :=
  (⟨.busRecoverEnd, 0x0103, 0x010F⟩ : DispatchRow) ∈ dispatchTable ∧
  ∀ s : State, exec .busRecoverEnd s = .next { s with
    elapsedSig := false
    tpEn := true
    resyncCnt := 0
    history := s.history ++ [.tpEnable]
    phase := phAcq }

/-- R61, R127(a): a byte of STAGING changes only in a CORE step in CHECK whose packet has SEQ = J; it
is then a byte of slot J and takes the received packet's byte. -/
def Obligations.StagingChangesOnlyByAccept : Prop :=
  ∀ (s t : State) (p i : Nat), s.mem.wf → p < 60 → i < 164 → step s = .next t →
    t.mem.read (stagingAddr p i) ≠ s.mem.read (stagingAddr p i) →
    s.coreNext ∧ s.phase = phCheck ∧ s.mem.read (rxpktAddr 1) = s.j.setWidth 8 ∧
      p = s.j.toNat ∧ t.mem.read (stagingAddr p i) = s.mem.read (rxpktAddr i)

/-- R23, R122, R125, R126: RESYNC_CNT changes only by a mismatch, which adds 1, by an accepted packet
under ON_ACCEPT, and by the end of recovery, which set it to 0. -/
def Obligations.ResyncCountChanges : Prop :=
  ∀ s t : State, step s = .next t → t.resyncCnt ≠ s.resyncCnt →
    s.coreNext ∧
    ((s.phase = phCheck ∧ s.mem.read (rxpktAddr 1) ≠ s.j.setWidth 8 ∧
        t.resyncCnt = s.resyncCnt + 1) ∨
      (s.phase = phCheck ∧ s.mem.read (rxpktAddr 1) = s.j.setWidth 8 ∧
        s.params.clearPolicy = .onAccept ∧ t.resyncCnt = 0) ∨
      (s.phase = phRecoverWait ∧ s.bitK = true ∧ t.resyncCnt = 0))

/-- R24, R25: WRONGSEG_CNT changes only by SEG_REJECT (plus 1), SEG_COMMIT and BUS_RECOVER_BEGIN (to
0), ZERO_CNT only by COMPOSITE and BUS_RECOVER_BEGIN (to 0). -/
def Obligations.DiagnosticCountersChange : Prop :=
  ∀ s t : State, step s = .next t →
    (t.wrongsegCnt ≠ s.wrongsegCnt → s.coreNext ∧
      ((s.phase = phSegCheck ∧ s.bitV = false ∧ t.wrongsegCnt = s.wrongsegCnt + 1) ∨
        (s.phase = phSegCheck ∧ s.bitV = true ∧ t.wrongsegCnt = 0) ∨
        (s.phase = phResyncWait ∧ s.bitK = true ∧ s.resyncCnt = 750 ∧ t.wrongsegCnt = 0))) ∧
    (t.zeroCnt ≠ s.zeroCnt → s.coreNext ∧
      (s.phase = phComposite ∨
        (s.phase = phResyncWait ∧ s.bitK = true ∧ s.resyncCnt = 750 ∧ t.zeroCnt = 0)))

/-! ### Segment Assembler -/

/-- R140: the whole effect of SEG_REJECT; WRONGSEG_CNT wraps at 32 bits, nothing is stored. -/
def Obligations.SegRejectEffect : Prop :=
  (⟨.segReject, 0x0004, 0x004F⟩ : DispatchRow) ∈ dispatchTable ∧
  ∀ s : State, exec .segReject s = .next { s with
    wrongsegCnt := s.wrongsegCnt + 1
    evt := 3
    history := s.history ++ [.errEvent 3]
    phase := phAcq }

/-- R141: SEG_COMMIT with an identifier g of 1 to 4 copies all 60 staged packets verbatim into
SEGSTORE[g-1], clears WRONGSEG_CNT, sets LAST_SEGID, and goes on to COMPOSITE exactly for 4; every
other register and byte stays. -/
def Obligations.SegCommitEffect : Prop :=
  (⟨.segCommit, 0x0044, 0x004F⟩ : DispatchRow) ∈ dispatchTable ∧
  ∀ (s : State) (g : Nat), s.mem.wf → 1 ≤ g → g ≤ 4 →
    ((s.mem.read (stagingAddr 20 0)).extractLsb' 4 4).toNat = g → ∃ m : Memory,
    exec .segCommit s = .next { s with
      mem := m
      wrongsegCnt := 0
      lastSegid := BitVec.ofNat 3 g
      phase := if g = 4 then phComposite else phAcq } ∧
    (∀ p < 60, ∀ i < 164,
      m.read (segstoreAddr (g - 1) p i) = s.mem.read (stagingAddr p i)) ∧
    (∀ a, a < segstoreAddr (g - 1) 0 0 ∨ segstoreAddr (g - 1) 60 0 ≤ a →
      m.read a = s.mem.read a) ∧ m.wf

/-- R62, R143(a): a byte of SEGSTORE[k] changes only in a CORE step in SEG_CHECK with identifier k+1,
and takes the staged packet's byte. -/
def Obligations.SegstoreChangesOnlyByCommit : Prop :=
  ∀ (s t : State) (k p i : Nat), s.mem.wf → k < 4 → p < 60 → i < 164 → step s = .next t →
    t.mem.read (segstoreAddr k p i) ≠ s.mem.read (segstoreAddr k p i) →
    s.coreNext ∧ s.phase = phSegCheck ∧ s.stagedSegid.toNat = k + 1 ∧
      t.mem.read (segstoreAddr k p i) = s.mem.read (stagingAddr p i)

/-! ### Payload decoder -/

/-- R94, R156: the geometry sends the samples of a pass one-to-one to the cells of the 120 x 160 grid,
and segment s to rows 30(s-1) to 30(s-1)+29. -/
def Obligations.GeometryIsOneToOne : Prop :=
  (∀ s p k, 1 ≤ s → s ≤ 4 → p < 60 → k < 80 →
    30 * (s - 1) ≤ rowOf s p ∧ rowOf s p ≤ 30 * (s - 1) + 29 ∧ rowOf s p < 120 ∧
      colOf p k < 160) ∧
  (∀ s p k s' p' k', 1 ≤ s → s ≤ 4 → p < 60 → k < 80 → 1 ≤ s' → s' ≤ 4 → p' < 60 → k' < 80 →
    rowOf s p = rowOf s' p' → colOf p k = colOf p' k' → s = s' ∧ p = p' ∧ k = k')

/-- R150, R155: the row of COMPOSITE; it completes in every state with sorted memory. The TFRAME cell
of payload word k of packet p of segment g takes that word's sample if the word and all before it in
the packet are non-zero, and otherwise keeps its value. ZERO_CNT grows by the packets that hold a
sentinel, and SAMPLE_SENTINEL is recorded once if there is one. With auto-ranging the CORE goes to
RANGE_WAIT; without it the scale is latched (or held, recorded after the sentinel) and the CORE goes
to COLORIZE. Every other register and every byte outside TFRAME stays. -/
def Obligations.CompositeEffect : Prop :=
  (⟨.composite, 0x0005, 0x000F⟩ : DispatchRow) ∈ dispatchTable ∧
  ∀ s : State, s.mem.wf → ∃ (m : Memory) (t : State),
    t = { s with
      mem := m
      zeroCnt := s.zeroCnt + BitVec.ofNat 32 (sentinelPackets s.mem)
      evt := if sentinelPackets s.mem = 0 then s.evt else 4
      history := s.history ++ if sentinelPackets s.mem = 0 then [] else [.errEvent 4] } ∧
    ((s.rangeCtrl.getLsbD 0 = true ∨ s.rangeCtrl.getLsbD 1 = true) →
      exec .composite s = .next { t with phase := phRangeWait }) ∧
    (s.rangeCtrl = 0 → s.rangeMin.toNat < s.rangeMax.toNat →
      exec .composite s = .next { t with
        scaleSpan := s.rangeMax - s.rangeMin
        scaleHeld := false
        minL := s.rangeMin
        phase := phColorize }) ∧
    (s.rangeCtrl = 0 → s.rangeMax.toNat ≤ s.rangeMin.toNat →
      exec .composite s = .next { t with
        scaleHeld := true
        minL := s.rangeMin
        evt := 5
        history := t.history ++ [.errEvent 5]
        phase := phColorize }) ∧
    (∀ g p k, 1 ≤ g → g ≤ 4 → p < 60 → k < 80 →
      ((∀ l ≤ k, storedSample s.mem g p l ≠ 0) →
        m.cell (cellAddr tframeBase (30 * (g - 1) + p / 2) (80 * (p % 2) + k)) =
          storedSample s.mem g p k) ∧
      ((∃ l ≤ k, storedSample s.mem g p l = 0) →
        m.cell (cellAddr tframeBase (30 * (g - 1) + p / 2) (80 * (p % 2) + k)) =
          s.mem.cell (cellAddr tframeBase (30 * (g - 1) + p / 2) (80 * (p % 2) + k)))) ∧
    (∀ a, a < 0x30000 ∨ 0x39600 ≤ a → m.read a = s.mem.read a) ∧ m.wf

/-! ### Colormap Quantizer -/

/-- R170: SCALE_LATCH, both cases, as a change of the state and nothing else. -/
def Obligations.ScaleLatchEffect : Prop :=
  ∀ s : State,
    (s.rangeMin.toNat < s.rangeMax.toNat → s.scaleLatch = { s with
      scaleSpan := s.rangeMax - s.rangeMin
      scaleHeld := false
      minL := s.rangeMin } ∧
      (s.rangeMax - s.rangeMin).toNat = s.rangeMax.toNat - s.rangeMin.toNat) ∧
    (s.rangeMax.toNat ≤ s.rangeMin.toNat → s.scaleLatch = { s with
      scaleHeld := true
      minL := s.rangeMin
      evt := 5
      history := s.history ++ [.errEvent 5] })

/-- The NORM value of each vector V-Q1 to V-Q20 of spec/95, and the two exact decimals of R179(b). -/
def Obligations.NormalisationVectors : Prop :=
  scaleOf 100 = 2.54999999999999982236431605997495353221893310546875 ∧
  fl64 (50 * scaleOf 100) = 127.4999999999999857891452847979962825775146484375 ∧
  normOf 30000 2000 30000 = 0 ∧ normOf 30000 2000 30007 = 1 ∧ normOf 100 100 150 = 127 ∧
  normOf 30000 2000 30200 = 26 ∧ normOf 30000 2000 31000 = 128 ∧ normOf 30000 2000 31500 = 191 ∧
  normOf 30000 2000 32000 = 255 ∧ normOf 30000 2000 32003 = 255 ∧ normOf 30000 2000 32004 = 256 ∧
  normOf 30000 2000 65535 = 4531 ∧ normOf 30000 2000 29997 = 0 ∧ normOf 30000 2000 29996 = -1 ∧
  normOf 30000 2000 1 = -3825 ∧ normOf 100 100 200 = 255 ∧ normOf 100 100 101 = 3 ∧
  normOf 100 100 250 = 383 ∧ normOf 200 100 150 = -127 ∧ normOf 0 65535 65535 = 255 ∧ normOf 0 65535 1 = 0 ∧ normOf 0 1 65535 = 16711425

/-- R171. fl64: 0 goes to 0; any other q with 2^e <= |q| < 2^(e+1) goes to sign(q) * m' * u with
u = 2^(e-52), where the integer m' is nearest to |q| / u and even in a tie. round_half_away:
floor(p + 1/2) for p >= 0 and -floor(-p + 1/2) for p < 0, which is a nearest integer, the one farther
from 0 in a tie. -/
def Obligations.ExactArithmeticHelpers : Prop :=
  fl64 0 = 0 ∧
  (∀ (q : Rat) (e : Int), q ≠ 0 → (2 : Rat) ^ e ≤ |q| → |q| < (2 : Rat) ^ (e + 1) →
    ∃ m' : Int,
      fl64 q = (if 0 ≤ q then 1 else -1) * (m' : Rat) * (2 : Rat) ^ (e - 52) ∧
      |(m' : Rat) - |q| / (2 : Rat) ^ (e - 52)| ≤ 1 / 2 ∧
      (|(m' : Rat) - |q| / (2 : Rat) ^ (e - 52)| = 1 / 2 → m' % 2 = 0)) ∧
  (∀ p : Rat, (0 ≤ p → roundHalfAway p = (p + 1 / 2).floor) ∧
    (p < 0 → roundHalfAway p = -(-p + 1 / 2).floor) ∧
    |(roundHalfAway p : Rat) - p| ≤ 1 / 2 ∧
    (|(roundHalfAway p : Rat) - p| = 1 / 2 → |p| < |(roundHalfAway p : Rat)|))

/-- R172: a sample inside the latched range normalises into 0..255. (The converse, which R172's prose
also says, is false of its own formula: log 15.) -/
def Obligations.NormOfSampleInRangeIsByte : Prop :=
  ∀ minL span raw : BitVec 16, span ≠ 0 → minL.toNat ≤ raw.toNat →
    raw.toNat ≤ minL.toNat + span.toNat → 0 ≤ normOf minL span raw ∧ normOf minL span raw ≤ 255

/-- R95, R173: the palette byte of channel c for a normalised value v of any sign is the one at offset
clamp(3v + c, 0, 767): entry v for v in 0..255, PALETTE[767] above, PALETTE[0] below. -/
def Obligations.PaletteLookupClamps : Prop :=
  ∀ (m : Memory) (v : Int), ∀ c < 3,
    paletteByte m v c = m.read (paletteAddr (paletteOffset v c)) ∧
    (paletteOffset v c : Int) = min (max (3 * v + c) 0) 767 ∧
    (0 ≤ v → v ≤ 255 → paletteByte m v c = m.read (paletteAddr (3 * v.toNat + c))) ∧
    (256 ≤ v → paletteByte m v c = m.read (paletteAddr 767)) ∧
    (v ≤ -1 → paletteByte m v c = m.read (paletteAddr 0))

/-- R96: the fields of a packed colour. -/
def Obligations.PackedColourFields : Prop :=
  ∀ r g b : Byte,
    (pack565 r g b).extractLsb' 11 5 = r.extractLsb' 3 5 ∧
    (pack565 r g b).extractLsb' 5 6 = g.extractLsb' 2 6 ∧
    (pack565 r g b).extractLsb' 0 5 = b.extractLsb' 3 5

/-- R179(a): with the identity palette the colour of a byte v shows v's top bits, and the clamps give
0xFFFF above and 0x0000 below. -/
def Obligations.IdentityPaletteColour : Prop :=
  ∀ (m : Memory), (∀ v < 256, ∀ c < 3, m.read (paletteAddr (3 * v + c)) = BitVec.ofNat 8 v) →
    (∀ v : Nat, v < 256 →
      (colorOfNorm m v).extractLsb' 11 5 = (BitVec.ofNat 8 v).extractLsb' 3 5 ∧
      (colorOfNorm m v).extractLsb' 5 6 = (BitVec.ofNat 8 v).extractLsb' 2 6 ∧
      (colorOfNorm m v).extractLsb' 0 5 = (BitVec.ofNat 8 v).extractLsb' 3 5) ∧
    (∀ v : Int, 256 ≤ v → colorOfNorm m v = 0xFFFF) ∧
    (∀ v : Int, v < 0 → colorOfNorm m v = 0x0000)

/-- R177, R97: COLORIZE completes whenever SCALE_SPAN is not 0 (R30 says it never is). Each non-zero
TFRAME cell colours its DFRAME cell and each zero cell leaves it; the descriptor carries the 19200
cells of DFRAME after the pass, row-major, and the origin; every other register and every byte outside
DFRAME stays. -/
def Obligations.ColorizeEffect : Prop :=
  (⟨.colorize, 0x0007, 0x000F⟩ : DispatchRow) ∈ dispatchTable ∧
  ∀ s : State, s.mem.wf → s.scaleSpan ≠ 0 → ∃ (m : Memory) (px : List Cell16),
    exec .colorize s = .next { s with
      mem := m
      history := s.history ++ [.presentReq
        { height := 120, width := 160, x := s.presOrigin.extractLsb' 0 16,
          y := s.presOrigin.extractLsb' 16 16, pixels := px }]
      phase := phPresentWait } ∧
    px.length = 19200 ∧
    (∀ r < 120, ∀ c < 160,
      px.getD (160 * r + c) 0 = m.cell (cellAddr dframeBase r c) ∧
      m.cell (cellAddr dframeBase r c) =
        if s.mem.cell (cellAddr tframeBase r c) = 0 then s.mem.cell (cellAddr dframeBase r c)
        else colorOfNorm s.mem (normOf s.minL s.scaleSpan (s.mem.cell (cellAddr tframeBase r c)))) ∧
    (∀ a, a < 0x40000 ∨ 0x49600 ≤ a → m.read a = s.mem.read a) ∧ m.wf

/-- R178: the whole effect of PRESENT_DONE. -/
def Obligations.PresentDoneEffect : Prop :=
  (⟨.presentDone, 0x0108, 0x010F⟩ : DispatchRow) ∈ dispatchTable ∧
  ∀ s : State, exec .presentDone s = .next { s with returnedSig := false, phase := phAcq }

/-! ### Host interface -/

/-- R200, R71: HOST_READ completes at every address in every state and changes nothing but the history,
which records the request and its response (and the model's count of draws, log 5). -/
def Obligations.HostReadHasNoSideEffect : Prop :=
  ∀ (s : State) (addr : HostAddr) (wdata : HostWord), ∃ (r : Resp) (n : Nat),
    exec (.hostRead addr wdata) s = .next { s with
      draws := s.draws + n, history := s.history ++ [.host (hostReq 0 addr wdata) r] }

/-- R200: HOST_READ completes at every address. A register answers its value, CMD 0, an aligned word
of a window its four bytes, the lowest address in bits 7:0 (some word in the phase whose operation
writes the window, R73), and everything else 0 with ERR. Nothing changes but the record of the
transaction (and the model's count of draws, log 5). -/
def Obligations.HostReadEffect : Prop :=
  ∀ (s : State) (wdata : HostWord),
  (∀ p ∈ ([(0x000, s.statusWord), (0x004, s.rangeCtrl.setWidth 32), (0x008, s.rangeMin.setWidth 32),
      (0x00C, s.rangeMax.setWidth 32), (0x010, s.scaleSpan.setWidth 32),
      (0x014, s.minL.setWidth 32), (0x018, 0), (0x01C, s.presOrigin), (0x020, s.resyncCnt),
      (0x024, s.wrongsegCnt), (0x028, s.zeroCnt)] : List (HostAddr × HostWord)),
    exec (.hostRead p.1 wdata) s = .next { s with
      history := s.history ++ [.host (hostReq 0 p.1 wdata) { rdata := p.2, err := false }] }) ∧
  (∀ addr : HostAddr,
    ∀ w ∈ ([(0x01000, 768, none), (0x08000, 164, some phAcq), (0x10000, 39360, some phSegCheck),
      (0x20000, 9840, some phCheck), (0x30000, 38400, some phComposite),
      (0x40000, 38400, some phColorize)] : List (Nat × Nat × Option (BitVec 4))),
    addr.toNat % 4 = 0 → w.1 ≤ addr.toNat → addr.toNat < w.1 + w.2.1 → ∃ v : HostWord,
      (w.2.2 ≠ some s.phase →
        (∀ i < 4, v.extractLsb' (8 * i) 8 = s.mem.read (addr.toNat + i)) ∧
        exec (.hostRead addr wdata) s = .next { s with
          history := s.history ++ [.host (hostReq 0 addr wdata) { rdata := v, err := false }] }) ∧
      (w.2.2 = some s.phase → ∃ n : Nat,
        exec (.hostRead addr wdata) s = .next { s with
          draws := n
          history := s.history ++ [.host (hostReq 0 addr wdata) { rdata := v, err := false }] })) ∧
  (∀ addr : HostAddr,
    (addr.toNat % 4 ≠ 0 ∨ (0x02C ≤ addr.toNat ∧ addr.toNat < 0x01000) ∨
      (0x01300 ≤ addr.toNat ∧ addr.toNat < 0x08000) ∨
      (0x080A4 ≤ addr.toNat ∧ addr.toNat < 0x10000) ∨
      (0x199C0 ≤ addr.toNat ∧ addr.toNat < 0x20000) ∨
      (0x22670 ≤ addr.toNat ∧ addr.toNat < 0x30000) ∨
      (0x39600 ≤ addr.toNat ∧ addr.toNat < 0x40000) ∨ 0x49600 ≤ addr.toNat) →
    exec (.hostRead addr wdata) s = .next { s with
      history := s.history ++ [.host (hostReq 0 addr wdata) { rdata := 0, err := true }] })

/-- The model's own form of R73's draw (log 5): a read of a window in the phase whose operation writes it
answers four free bytes, each drawn for itself, and counts them. -/
def Obligations.DrawnReadsAreFreeBytes : Prop :=
  ∀ (s : State) (addr : HostAddr) (wdata : HostWord),
    ∀ w ∈ ([(0x08000, 164, phAcq), (0x10000, 39360, phSegCheck), (0x20000, 9840, phCheck),
      (0x30000, 38400, phComposite), (0x40000, 38400, phColorize)] : List (Nat × Nat × BitVec 4)),
    addr.toNat % 4 = 0 → w.1 ≤ addr.toNat → addr.toNat < w.1 + w.2.1 → s.phase = w.2.2 →
    ∃ v : HostWord, (∀ i < 4, v.extractLsb' (8 * i) 8 = Config.freeByte (s.draws + i)) ∧
      exec (.hostRead addr wdata) s = .next { s with
        draws := s.draws + 4
        history := s.history ++ [.host (hostReq 0 addr wdata) { rdata := v, err := false }] }

/-- R37, the reset column, as the host reads it, and two palette words of the grey ramp (V-H9, V-H10). -/
def Obligations.RegisterReadsAtReset : Prop :=
  ∀ p ∈ ([(0x000, 0x00000020), (0x004, 0x00000003), (0x008, 0x00007530), (0x00C, 0x00007D00),
      (0x010, 0x000007D0), (0x014, 0x00007530), (0x018, 0x00000000), (0x01C, 0x00000000),
      (0x020, 0x00000000), (0x024, 0x00000000), (0x028, 0x00000000), (0x01000, 0x01000000),
      (0x012FC, 0xFFFFFFFE)] : List (HostAddr × HostWord)),
    exec (.hostRead p.1 0) State.reset = .next { State.reset with
      history := [.host (hostReq 0 p.1 0) { rdata := p.2, err := false }] }

/-- R223, R103: a host transaction that answers ERR answers RDATA = 0, changes nothing but the record of
the transaction, and records no event: EVT and everything else stays. -/
def Obligations.FailedTransactionsChangeNothing : Prop :=
  ∀ (s t : State) (q : HostReq) (r : Resp), exec (decodeHost q) s = .next t →
    t.history.getLast? = some (.host q r) → r.err = true →
    r.rdata = 0 ∧ t = { s with history := s.history ++ [.host q r] }

/-- R201: HOST_WRITE completes at every address: the four read-write registers in every phase, the
reserved bits of WDATA ignored; a write to CMD is R202's; four bytes of PALETTE outside COLORIZE, bits
7:0 at the lowest address; everything else answers ERR. Nothing else changes. -/
def Obligations.HostWriteEffect : Prop :=
  ∀ (s : State) (wdata : HostWord),
  exec (.hostWrite 0x00004 wdata) s = .next { s with
    rangeCtrl := wdata.extractLsb' 0 2
    history := s.history ++ [.host (hostReq 1 0x00004 wdata) { rdata := 0, err := false }] } ∧
  exec (.hostWrite 0x00008 wdata) s = .next { s with
    rangeMin := wdata.extractLsb' 0 16
    history := s.history ++ [.host (hostReq 1 0x00008 wdata) { rdata := 0, err := false }] } ∧
  exec (.hostWrite 0x0000C wdata) s = .next { s with
    rangeMax := wdata.extractLsb' 0 16
    history := s.history ++ [.host (hostReq 1 0x0000C wdata) { rdata := 0, err := false }] } ∧
  exec (.hostWrite 0x0001C wdata) s = .next { s with
    presOrigin := wdata
    history := s.history ++ [.host (hostReq 1 0x0001C wdata) { rdata := 0, err := false }] } ∧
  (wdata.extractLsb' 0 8 = 0x01#8 →
    exec (.hostWrite 0x00018 wdata) s = exec (.cmdRangeDone (wdata.extractLsb' 8 24)) s) ∧
  (∀ addr : HostAddr, s.mem.wf → s.phase ≠ phColorize → addr.toNat % 4 = 0 →
    0x01000 ≤ addr.toNat → addr.toNat < 0x01300 → ∃ m : Memory,
    exec (.hostWrite addr wdata) s = .next { s with
      mem := m
      history := s.history ++ [.host (hostReq 1 addr wdata) { rdata := 0, err := false }] } ∧
    (∀ i < 4, m.read (addr.toNat + i) = wdata.extractLsb' (8 * i) 8) ∧
    (∀ a, a < addr.toNat ∨ addr.toNat + 4 ≤ a → m.read a = s.mem.read a) ∧ m.wf) ∧
  (∀ addr : HostAddr,
    (addr.toNat % 4 ≠ 0 ∨ addr.toNat ∈ [0x000, 0x010, 0x014, 0x020, 0x024, 0x028] ∨
      (0x02C ≤ addr.toNat ∧ addr.toNat < 0x01000) ∨ 0x01300 ≤ addr.toNat ∨
      (0x01000 ≤ addr.toNat ∧ addr.toNat < 0x01300 ∧ s.phase = phColorize) ∨
      (addr = 0x00018 ∧ wdata.extractLsb' 0 8 ≠ 0x01#8)) →
    exec (.hostWrite addr wdata) s = .next { s with
      history := s.history ++ [.host (hostReq 1 addr wdata) { rdata := 0, err := true }] })

/-- R202, R175, R170: CMD_RANGE_DONE in RANGE_WAIT latches the scale (or holds it and records
SPAN_DEGENERATE) and passes to COLORIZE with response OK; in any other phase it answers ERR and has no
effect. (That the HOST event follows the event of the held scale is the model's inference, log 9.) -/
def Obligations.CmdRangeDoneEffect : Prop :=
  ∀ (s : State) (hi : BitVec 24) (req : HostReq), req = hostReq 1 0x00018 (hi ++ 0x01#8) →
    (s.phase = phRangeWait → s.rangeMin.toNat < s.rangeMax.toNat →
      exec (.cmdRangeDone hi) s = .next { s with
        scaleSpan := s.rangeMax - s.rangeMin
        scaleHeld := false
        minL := s.rangeMin
        phase := phColorize
        history := s.history ++ [.host req { rdata := 0, err := false }] }) ∧
    (s.phase = phRangeWait → s.rangeMax.toNat ≤ s.rangeMin.toNat →
      exec (.cmdRangeDone hi) s = .next { s with
        scaleHeld := true
        minL := s.rangeMin
        evt := 5
        phase := phColorize
        history := s.history ++ [.errEvent 5, .host req { rdata := 0, err := false }] }) ∧
    (s.phase ≠ phRangeWait →
      exec (.cmdRangeDone hi) s = .next { s with
        history := s.history ++ [.host req { rdata := 0, err := true }] })

/-! ### Whole-machine rules -/

/-- The model's choice (log 12), not the spec's: PKT_ACCEPT with J of 60 or more (R22 rules it out), a
SEG_COMMIT whose identifier has no buffer (R62) and a COLORIZE with SCALE_SPAN = 0 (R30 rules it out)
stop, each with its own fault. -/
def Obligations.OperationsStopOutsideTheirRanges : Prop :=
  ∀ s : State,
    (60 ≤ s.j.toNat → exec .pktAccept s = .fault .noStagingSlot) ∧
    (¬(1 ≤ ((s.mem.read (stagingAddr 20 0)).extractLsb' 4 4).toNat ∧
        ((s.mem.read (stagingAddr 20 0)).extractLsb' 4 4).toNat ≤ 4) →
      exec .segCommit s = .fault .noSegmentBuffer) ∧
    (s.scaleSpan = 0 → exec .colorize s = .fault .zeroSpan)

/-- Every step from a legal state leads to a legal state. -/
def Obligations.StepKeepsLegal : Prop :=
  ∀ s t : State, Legal s → step s = .next t → Legal t

/-- R220: no operation of the block can stop the CORE. From a legal state every step, whoever's turn it
is, answers a next state: no fault and no refusal. (That a hold, or a signal that is not due, answers a next state
at all is the model's choice, log 2 and log 3.) -/
def Obligations.LegalStateNeverStops : Prop :=
  ∀ s : State, Legal s → Runs s

/-- R84: a step only appends to the event history, and neither what it appends nor what it does depends
on the history before it. -/
def Obligations.HistoryGrowsAndIsNeverRead : Prop :=
  ∀ s t : State, step s = .next t → ∃ es : List Event, t.history = s.history ++ es ∧
    ∀ h : List Event, step { s with history := h } = .next { t with history := h ++ es }

/-- R65, R81, R205: a byte of PALETTE changes only by a HOST turn with a write request, and never in
COLORIZE. -/
def Obligations.PaletteChangesOnlyByHostWrite : Prop :=
  ∀ (s t : State) (n : Nat), s.mem.wf → n < 768 → step s = .next t →
    t.mem.read (paletteAddr n) ≠ s.mem.read (paletteAddr n) →
    s.phase ≠ phColorize ∧
      ∃ q : HostReq, s.turns.head? = some (.host q) ∧ q.getLsbD 52 = true

/-- R63, R157, R94: a TFRAME cell changes only in a CORE step in COMPOSITE, and then to the stored sample
that the geometry sends to it, never to 0. -/
def Obligations.ThermalCellsChangeOnlyToSamples : Prop :=
  ∀ (s t : State) (r c : Nat), s.mem.wf → r < 120 → c < 160 → step s = .next t →
    t.mem.cell (cellAddr tframeBase r c) ≠ s.mem.cell (cellAddr tframeBase r c) →
    s.coreNext ∧ s.phase = phComposite ∧ t.mem.cell (cellAddr tframeBase r c) ≠ 0 ∧
      t.mem.cell (cellAddr tframeBase r c) =
        storedSample s.mem (r / 30 + 1) (2 * (r % 30) + c / 80) (c % 80)

/-- R64, R177: a DFRAME cell changes only in a CORE step in COLORIZE and where the TFRAME cell is not
0. -/
def Obligations.DisplayCellsChangeOnlyByColorize : Prop :=
  ∀ (s t : State) (r c : Nat), s.mem.wf → r < 120 → c < 160 → step s = .next t →
    t.mem.cell (cellAddr dframeBase r c) ≠ s.mem.cell (cellAddr dframeBase r c) →
    s.coreNext ∧ s.phase = phColorize ∧ s.mem.cell (cellAddr tframeBase r c) ≠ 0

/-- R175: RANGE_WAIT is left only by a HOST turn that writes code 0x01 to CMD, and then for COLORIZE. -/
def Obligations.RangeWaitIsLeftOnlyByRangeDone : Prop :=
  ∀ s t : State, step s = .next t → s.phase = phRangeWait → t.phase ≠ phRangeWait →
    t.phase = phColorize ∧ ∃ q : HostReq, s.turns.head? = some (.host q) ∧ q.getLsbD 52 = true ∧
      q.extractLsb' 32 20 = 0x00018#20 ∧ q.extractLsb' 0 8 = 0x01#8

/-- R259: bytes are transferred only in ACQ at CORE's turn: a slow recovery, host or sink throttles
acquisition. -/
def Obligations.TransfersOnlyInAcq : Prop :=
  ∀ (s t : State) (es : List Event) (tx rx : Byte), step s = .next t →
    t.history = s.history ++ es → Event.xfer tx rx ∈ es → s.coreNext ∧ s.phase = phAcq

/-- R27, R28, R29, R36: only a HOST write changes RANGE_MIN, RANGE_MAX, RANGE_CTRL or PRES_ORIGIN. And
the open parameters of R7 and R126, which the model holds in the state by its own choice (log 6, log 7),
are changed by no step. -/
def Obligations.HostRegistersChangeOnlyByHostWrite : Prop :=
  ∀ s t : State, step s = .next t → t.params = s.params ∧
    ((t.rangeMin ≠ s.rangeMin ∨ t.rangeMax ≠ s.rangeMax ∨ t.rangeCtrl ≠ s.rangeCtrl ∨
        t.presOrigin ≠ s.presOrigin) →
      ∃ q : HostReq, s.turns.head? = some (.host q) ∧ q.getLsbD 52 = true)
end

