-- ==== Sys2Proof/Laws/Arith.lean ====
section
/-! SUPPORT. The laws of the exact arithmetic helpers (R171): powers of two, the binary exponent, rounding
to the nearest even integer. -/

namespace Sys2Proof.Machine

theorem pow2_eq (e : Int) : pow2 e = (2 : Rat) ^ e := by
  cases e with
  | ofNat n => simp [pow2]
  | negSucc n =>
    rw [pow2, zpow_negSucc, Rat.mkRat_eq_div]
    push_cast
    rw [one_div]

theorem pow2_pos (e : Int) : 0 < pow2 e := by
  rw [pow2_eq]; positivity

theorem magnitude_eq (q : Rat) : magnitude q = |q| := by
  unfold magnitude
  split
  · rename_i h; rw [abs_of_nonneg h]
  · rename_i h; rw [abs_of_neg (not_le.mp h)]

/-- The binary exponent of a positive rational: 2^e <= q < 2^(e+1). -/
theorem floorLog2_spec {q : Rat} (hq : 0 < q) :
    (2 : Rat) ^ floorLog2 q ≤ q ∧ q < (2 : Rat) ^ (floorLog2 q + 1) := by
  have hn : 0 < q.num := Rat.num_pos.mpr hq
  have hn0 : q.num.natAbs ≠ 0 := by omega
  have hd0 : q.den ≠ 0 := q.den_nz
  have hd : (0 : Rat) < (q.den : Rat) := by exact_mod_cast Nat.pos_of_ne_zero hd0
  have hqe : q = (q.num.natAbs : Rat) / (q.den : Rat) := by
    conv_lhs => rw [← Rat.num_div_den q]
    congr 1
    have : (q.num.natAbs : Int) = q.num := by omega
    rw [← Int.cast_natCast, this]
  have hnl : (2 : Rat) ^ (Nat.log2 q.num.natAbs : Int) ≤ (q.num.natAbs : Rat) := by
    rw [zpow_natCast]; exact_mod_cast Nat.log2_self_le hn0
  have hnu : (q.num.natAbs : Rat) < (2 : Rat) ^ ((Nat.log2 q.num.natAbs : Int) + 1) := by
    have := @Nat.lt_log2_self q.num.natAbs
    rw [show ((Nat.log2 q.num.natAbs : Int) + 1) = ((Nat.log2 q.num.natAbs + 1 : Nat) : Int) by simp,
      zpow_natCast]
    exact_mod_cast this
  have hdl : (2 : Rat) ^ (Nat.log2 q.den : Int) ≤ (q.den : Rat) := by
    rw [zpow_natCast]; exact_mod_cast Nat.log2_self_le hd0
  have hdu : (q.den : Rat) < (2 : Rat) ^ ((Nat.log2 q.den : Int) + 1) := by
    have := @Nat.lt_log2_self q.den
    rw [show ((Nat.log2 q.den : Int) + 1) = ((Nat.log2 q.den + 1 : Nat) : Int) by simp,
      zpow_natCast]
    exact_mod_cast this
  generalize hln : (Nat.log2 q.num.natAbs : Int) = ln at *
  generalize hld : (Nat.log2 q.den : Int) = ld at *
  have two : (2 : Rat) ≠ 0 := by norm_num
  have hup : q < (2 : Rat) ^ (ln - ld + 1) := by
    rw [hqe, div_lt_iff₀ hd]
    calc (q.num.natAbs : Rat) < 2 ^ (ln + 1) := hnu
      _ = 2 ^ (ln - ld + 1) * 2 ^ ld := by rw [← zpow_add₀ two]; congr 1; ring
      _ ≤ 2 ^ (ln - ld + 1) * (q.den : Rat) := by
          apply mul_le_mul_of_nonneg_left hdl; positivity
  have hlo : (2 : Rat) ^ (ln - ld - 1) ≤ q := by
    rw [hqe, le_div_iff₀ hd]
    calc (2 : Rat) ^ (ln - ld - 1) * (q.den : Rat) ≤ 2 ^ (ln - ld - 1) * 2 ^ (ld + 1) := by
          apply mul_le_mul_of_nonneg_left hdu.le; positivity
      _ = 2 ^ ln := by rw [← zpow_add₀ two]; congr 1; ring
      _ ≤ _ := hnl
  unfold floorLog2
  simp only [hln, hld, pow2_eq]
  by_cases h : (2 : Rat) ^ (ln - ld) ≤ q
  · rw [if_pos h]; exact ⟨h, hup⟩
  · rw [if_neg h]
    refine ⟨hlo, ?_⟩
    rw [show ln - ld - 1 + 1 = ln - ld by ring]
    exact not_le.mp h

/-- The exponent is determined by its bounds. -/
theorem exponent_unique {q : Rat} {e f : Int} (h1 : (2 : Rat) ^ e ≤ q) (h2 : q < (2 : Rat) ^ (e + 1))
    (h3 : (2 : Rat) ^ f ≤ q) (h4 : q < (2 : Rat) ^ (f + 1)) : e = f := by
  have a : e < f + 1 := (zpow_lt_zpow_iff_right₀ (by norm_num : (1 : Rat) < 2)).mp (h1.trans_lt h4)
  have b : f < e + 1 := (zpow_lt_zpow_iff_right₀ (by norm_num : (1 : Rat) < 2)).mp (h3.trans_lt h2)
  omega

/-- Rounding to the nearest integer, ties to even (R171). -/
theorem roundHalfEven_spec (m : Rat) : |(roundHalfEven m : Rat) - m| ≤ 1 / 2 ∧
    (|(roundHalfEven m : Rat) - m| = 1 / 2 → roundHalfEven m % 2 = 0) := by
  have hf : (m.floor : Rat) ≤ m := Rat.floor_le m
  have hl : m < (m.floor : Rat) + 1 := by exact_mod_cast Rat.lt_floor_add_one m
  unfold roundHalfEven
  simp only
  split
  · rename_i h
    rw [abs_of_nonpos (by linarith)]
    exact ⟨by linarith, fun he => by linarith⟩
  · rename_i h
    split
    · rename_i h'
      push_cast
      rw [abs_of_nonneg (by linarith)]
      exact ⟨by linarith, fun he => by linarith⟩
    · rename_i h'
      have hh : m - (m.floor : Rat) = 1 / 2 := le_antisymm (not_lt.mp h') (not_lt.mp h)
      split
      · rename_i h2
        rw [abs_of_nonpos (by linarith)]
        exact ⟨by linarith, fun _ => h2⟩
      · rename_i h2
        push_cast
        rw [abs_of_nonneg (by linarith)]
        exact ⟨by linarith, fun _ => by omega⟩

end Sys2Proof.Machine
end

