-- ==== Sys2Proof/Laws/Memory.lean ====
section
/-! SUPPORT. The laws of the byte memory: what a read gives after a store, that loading is reading byte
by byte, that stores keep the canonical form, and that equal contents are equal data. -/

namespace Sys2Proof.Machine

/-! ### The two halves of a walk -/

theorem Memory.upFrom_nil (a : Nat) : Memory.upFrom [] a = [] := rfl

theorem Memory.below_nil (a : Nat) : Memory.below [] a = [] := rfl

theorem Memory.upFrom_cons (c : Host.Cell) (m : Memory) (a : Nat) :
    Memory.upFrom (c :: m) a = if c.1 < a then Memory.upFrom m a else c :: m := by
  unfold Memory.upFrom
  by_cases h : c.1 < a <;> simp [h]

theorem Memory.below_cons (c : Host.Cell) (m : Memory) (a : Nat) :
    Memory.below (c :: m) a = if c.1 < a then c :: Memory.below m a else [] := by
  unfold Memory.below
  by_cases h : c.1 < a <;> simp [h]

theorem Memory.mem_upFrom {m : Memory} (hs : m.Pairwise (fun c d => c.1 < d.1)) (a : Nat)
    (c : Host.Cell) : c ∈ m.upFrom a ↔ c ∈ m ∧ a ≤ c.1 := by
  induction m with
  | nil => simp [Memory.upFrom_nil]
  | cons d m ih =>
    obtain ⟨hd, hm⟩ := List.pairwise_cons.mp hs
    rw [Memory.upFrom_cons]
    by_cases h : d.1 < a
    · rw [if_pos h, ih hm]
      constructor
      · rintro ⟨h1, h2⟩; exact ⟨List.mem_cons_of_mem _ h1, h2⟩
      · rintro ⟨h1, h2⟩
        rcases List.mem_cons.mp h1 with rfl | h1
        · omega
        · exact ⟨h1, h2⟩
    · rw [if_neg h]
      constructor
      · intro h1
        refine ⟨h1, ?_⟩
        rcases List.mem_cons.mp h1 with rfl | h1
        · omega
        · have := hd c h1; omega
      · rintro ⟨h1, -⟩; exact h1

theorem Memory.mem_below {m : Memory} (hs : m.Pairwise (fun c d => c.1 < d.1)) (a : Nat)
    (c : Host.Cell) : c ∈ m.below a ↔ c ∈ m ∧ c.1 < a := by
  induction m with
  | nil => simp [Memory.below_nil]
  | cons d m ih =>
    obtain ⟨hd, hm⟩ := List.pairwise_cons.mp hs
    rw [Memory.below_cons]
    by_cases h : d.1 < a
    · rw [if_pos h, List.mem_cons, List.mem_cons, ih hm]
      constructor
      · rintro (rfl | ⟨h1, h2⟩)
        · exact ⟨Or.inl rfl, h⟩
        · exact ⟨Or.inr h1, h2⟩
      · rintro ⟨rfl | h1, h2⟩
        · exact Or.inl rfl
        · exact Or.inr ⟨h1, h2⟩
    · rw [if_neg h]
      constructor
      · intro h1; cases h1
      · rintro ⟨h1, h2⟩
        rcases List.mem_cons.mp h1 with rfl | h1
        · omega
        · have := hd c h1; omega

theorem Memory.upFrom_sublist (m : Memory) (a : Nat) : (m.upFrom a).Sublist m :=
  List.dropWhile_sublist _

theorem Memory.below_sublist (m : Memory) (a : Nat) : (m.below a).Sublist m :=
  List.takeWhile_sublist _

/-! ### Reading -/

theorem Memory.read_nil (a : Nat) : Memory.read [] a = Memory.unlisted a := rfl

/-- Reading walks past lower addresses and then looks at one entry. -/
theorem Memory.read_cons (c : Host.Cell) (m : Memory) (a : Nat) :
    Memory.read (c :: m) a =
      if c.1 < a then Memory.read m a else if c.1 = a then c.2 else Memory.unlisted a := by
  unfold Memory.read
  rw [Memory.upFrom_cons]
  by_cases h : c.1 < a <;> simp [h]

/-- A listed address reads as its entry. -/
theorem Memory.read_of_mem {m : Memory} (hs : m.Pairwise (fun c d => c.1 < d.1)) {a : Nat} {v : Byte}
    (h : (a, v) ∈ m) : m.read a = v := by
  induction m with
  | nil => cases h
  | cons d m ih =>
    obtain ⟨hd, hm⟩ := List.pairwise_cons.mp hs
    rw [Memory.read_cons]
    rcases List.mem_cons.mp h with rfl | h1
    · simp
    · have hlt : d.1 < a := hd _ h1
      rw [if_pos hlt, ih hm h1]

/-- An unlisted address reads as the reset contents. -/
theorem Memory.read_of_not_mem {m : Memory} {a : Nat} (h : ∀ v, (a, v) ∉ m) :
    m.read a = Memory.unlisted a := by
  induction m with
  | nil => rfl
  | cons d m ih =>
    rw [Memory.read_cons]
    have h1 : d.1 ≠ a := by
      rintro rfl
      exact h d.2 (by simp)
    have h2 : Memory.read m a = Memory.unlisted a := ih fun v hv => h v (List.mem_cons_of_mem _ hv)
    rw [if_neg h1, h2, ite_self]

/-- Two sorted memories that list the same values at an address read the same there. -/
theorem Memory.read_congr {m m' : Memory} (hs : m.Pairwise (fun c d => c.1 < d.1))
    (hs' : m'.Pairwise (fun c d => c.1 < d.1)) {a : Nat} (h : ∀ v, (a, v) ∈ m ↔ (a, v) ∈ m') :
    m.read a = m'.read a := by
  by_cases hx : ∃ v, (a, v) ∈ m
  · obtain ⟨v, hv⟩ := hx
    rw [Memory.read_of_mem hs hv, Memory.read_of_mem hs' ((h v).mp hv)]
  · have h1 : ∀ v, (a, v) ∉ m := fun v hv => hx ⟨v, hv⟩
    rw [Memory.read_of_not_mem h1, Memory.read_of_not_mem fun v hv => h1 v ((h v).mpr hv)]

/-! ### The entries of a block -/

theorem Memory.mem_entries {a : Nat} {bs : List Byte} {c : Host.Cell} :
    c ∈ Memory.entries a bs ↔
      ∃ i, ∃ h : i < bs.length, c = (a + i, bs[i]) ∧ bs[i] ≠ Memory.unlisted (a + i) := by
  induction bs generalizing a with
  | nil => simp [Memory.entries]
  | cons b bs ih =>
    have key : c ∈ Memory.entries a (b :: bs) ↔
        (c = (a, b) ∧ b ≠ Memory.unlisted a) ∨ c ∈ Memory.entries (a + 1) bs := by
      by_cases hb : b = Memory.unlisted a
      · simp [Memory.entries, hb]
      · simp [Memory.entries, hb]
    rw [key, ih]
    constructor
    · rintro (⟨rfl, hb⟩ | ⟨i, hi, rfl, hne⟩)
      · exact ⟨0, by simp, by simp, by simpa using hb⟩
      · refine ⟨i + 1, by simpa using hi, ?_, ?_⟩
        · simp only [List.getElem_cons_succ, Prod.mk.injEq, and_true]; omega
        · simpa [Nat.add_assoc, Nat.add_comm 1 i] using hne
    · rintro ⟨i, hi, rfl, hne⟩
      cases i with
      | zero => exact Or.inl ⟨by simp, by simpa using hne⟩
      | succ i =>
        refine Or.inr ⟨i, by simpa using hi, ?_, ?_⟩
        · simp only [List.getElem_cons_succ, Prod.mk.injEq, and_true]; omega
        · simpa [Nat.add_assoc, Nat.add_comm 1 i] using hne

theorem Memory.entries_bounds {a : Nat} {bs : List Byte} {c : Host.Cell}
    (h : c ∈ Memory.entries a bs) : a ≤ c.1 ∧ c.1 < a + bs.length := by
  obtain ⟨i, hi, rfl, -⟩ := Memory.mem_entries.mp h
  constructor <;> simp; omega

theorem Memory.entries_sorted (a : Nat) (bs : List Byte) :
    (Memory.entries a bs).Pairwise fun c d => c.1 < d.1 := by
  induction bs generalizing a with
  | nil => simp [Memory.entries]
  | cons b bs ih =>
    by_cases hb : b = Memory.unlisted a
    · simpa [Memory.entries, hb] using ih (a + 1)
    · simp only [Memory.entries, if_neg hb, List.pairwise_cons]
      refine ⟨fun c hc => ?_, ih (a + 1)⟩
      have := (Memory.entries_bounds hc).1
      show a < c.1
      omega

/-! ### Storing -/

theorem Memory.mem_store {m : Memory} (hs : m.Pairwise (fun c d => c.1 < d.1)) (a : Nat)
    (bs : List Byte) (c : Host.Cell) :
    c ∈ m.store a bs ↔
      (c ∈ m ∧ (c.1 < a ∨ a + bs.length ≤ c.1)) ∨ c ∈ Memory.entries a bs := by
  unfold Memory.store
  rw [List.mem_append, List.mem_append, Memory.mem_below hs, Memory.mem_upFrom hs]
  tauto

theorem Memory.store_sorted {m : Memory} (hs : m.Pairwise (fun c d => c.1 < d.1)) (a : Nat)
    (bs : List Byte) : (m.store a bs).Pairwise fun c d => c.1 < d.1 := by
  unfold Memory.store
  rw [List.pairwise_append, List.pairwise_append]
  refine ⟨hs.sublist (m.below_sublist a), ⟨Memory.entries_sorted a bs,
    hs.sublist (m.upFrom_sublist _), fun c hc d hd => ?_⟩, fun c hc d hd => ?_⟩
  · have h1 := (Memory.entries_bounds hc).2
    have h2 := ((Memory.mem_upFrom hs _ d).mp hd).2
    omega
  · have h1 := ((Memory.mem_below hs a c).mp hc).2
    rcases List.mem_append.mp hd with hd | hd
    · have h2 := (Memory.entries_bounds hd).1
      omega
    · have h2 := ((Memory.mem_upFrom hs _ d).mp hd).2
      omega

/-- A store keeps the canonical form: the one way memory is written. -/
theorem Memory.store_wf {m : Memory} (h : m.wf) (a : Nat) (bs : List Byte) : (m.store a bs).wf := by
  refine ⟨Memory.store_sorted h.1 a bs, fun c hc => ?_⟩
  rcases (Memory.mem_store h.1 a bs c).mp hc with ⟨hc, -⟩ | hc
  · exact h.2 c hc
  · obtain ⟨i, hi, rfl, hne⟩ := Memory.mem_entries.mp hc
    exact hne

theorem Memory.nil_wf : Memory.wf [] := by simp [Memory.wf]

/-- A stored byte reads back. -/
theorem Memory.read_store_inside {m : Memory} (hs : m.Pairwise (fun c d => c.1 < d.1)) (a : Nat)
    {bs : List Byte} {i : Nat} (hi : i < bs.length) : (m.store a bs).read (a + i) = bs[i] := by
  by_cases hb : bs[i] = Memory.unlisted (a + i)
  · rw [hb]
    refine Memory.read_of_not_mem fun v hv => ?_
    rcases (Memory.mem_store hs a bs _).mp hv with ⟨-, h⟩ | h
    · simp only at h; omega
    · obtain ⟨j, hj, he, hne⟩ := Memory.mem_entries.mp h
      obtain ⟨h1, h2⟩ := Prod.mk.inj he
      obtain rfl : i = j := by omega
      exact hne hb
  · refine Memory.read_of_mem (Memory.store_sorted hs a bs) ?_
    exact (Memory.mem_store hs a bs _).mpr (Or.inr (Memory.mem_entries.mpr ⟨i, hi, rfl, hb⟩))

/-- Every byte outside the stored block reads as before. -/
theorem Memory.read_store_outside {m : Memory} (hs : m.Pairwise (fun c d => c.1 < d.1)) {a x : Nat}
    {bs : List Byte} (hx : x < a ∨ a + bs.length ≤ x) : (m.store a bs).read x = m.read x := by
  refine Memory.read_congr (Memory.store_sorted hs a bs) hs fun v => ?_
  rw [Memory.mem_store hs]
  constructor
  · rintro (⟨h, -⟩ | h)
    · exact h
    · have := Memory.entries_bounds h; simp only at this; omega
  · intro h; exact Or.inl ⟨h, hx⟩

/-- What a read gives after a store. -/
theorem Memory.read_store {m : Memory} (hs : m.Pairwise (fun c d => c.1 < d.1)) (a x : Nat)
    (bs : List Byte) :
    (m.store a bs).read x = if h : a ≤ x ∧ x < a + bs.length then bs[x - a]'(by omega)
      else m.read x := by
  by_cases h : a ≤ x ∧ x < a + bs.length
  · have h1 := Memory.read_store_inside hs a (bs := bs) (i := x - a) (by omega)
    rw [show a + (x - a) = x by omega] at h1
    rw [dif_pos h, h1]
  · rw [dif_neg h, Memory.read_store_outside hs (by omega)]

/-! ### Loading is reading byte by byte -/

theorem Memory.load_succ {m : Memory} (hs : m.Pairwise (fun c d => c.1 < d.1)) (a n : Nat) :
    ∃ m' : Memory, m'.Pairwise (fun c d => c.1 < d.1) ∧ (∀ x, a < x → m'.read x = m.read x) ∧
      m.load a (n + 1) = m.read a :: m'.load (a + 1) n := by
  have hup : (m.upFrom a).Pairwise fun c d => c.1 < d.1 := hs.sublist (m.upFrom_sublist a)
  have hsame : ∀ x, a ≤ x → (m.upFrom a).read x = m.read x := fun x hx =>
    Memory.read_congr hup hs fun v => by
      rw [Memory.mem_upFrom hs]; exact ⟨fun h => h.1, fun h => ⟨h, hx⟩⟩
  rw [Memory.load, ← hsame a le_rfl]
  cases hm : m.upFrom a with
  | nil =>
    refine ⟨[], List.Pairwise.nil, fun x hx => ?_, rfl⟩
    rw [← hsame x hx.le, hm]
  | cons c rest =>
    have hle : a ≤ c.1 := by
      have : c ∈ m.upFrom a := by rw [hm]; simp
      exact ((Memory.mem_upFrom hs a c).mp this).2
    rw [hm] at hup hsame
    obtain ⟨k, v⟩ := c
    by_cases hk : k = a
    · subst hk
      refine ⟨rest, (List.pairwise_cons.mp hup).2, fun x hx => ?_, ?_⟩
      · rw [← hsame x hx.le, Memory.read_cons, if_pos hx]
      · simp [Memory.read_cons]
    · refine ⟨(k, v) :: rest, hup, fun x hx => hsame x hx.le, ?_⟩
      have hlt : ¬ k < a := by simp only at hle; omega
      simp [Memory.read_cons, hk, hlt]

theorem Memory.load_eq_map_read {m : Memory} (hs : m.Pairwise (fun c d => c.1 < d.1)) (a n : Nat) :
    m.load a n = (List.range n).map fun i => m.read (a + i) := by
  induction n generalizing m a with
  | zero => rfl
  | succ n ih =>
    obtain ⟨m', hs', hsame, hload⟩ := Memory.load_succ hs a n
    rw [hload, ih hs', List.range_succ_eq_map, List.map_cons, List.map_map]
    refine congrArg₂ _ (by simp) (List.map_congr_left fun i _ => ?_)
    simp only [Function.comp, Nat.succ_eq_add_one]
    rw [hsame _ (by omega), show a + 1 + i = a + (i + 1) by omega]

theorem Memory.load_length (m : Memory) (a n : Nat) : (m.load a n).length = n := by
  induction n generalizing m a with
  | zero => rfl
  | succ n ih =>
    unfold Memory.load
    split
    · simp [ih]
    · split <;> simp [ih]

theorem Memory.load_getElem {m : Memory} (hs : m.Pairwise (fun c d => c.1 < d.1)) (a n i : Nat)
    (hi : i < (m.load a n).length) : (m.load a n)[i] = m.read (a + i) := by
  simp only [Memory.load_eq_map_read hs, List.getElem_map, List.getElem_range]

/-! ### Equal contents are equal data -/

theorem Memory.mem_iff_read {m : Memory} (h : m.wf) (a : Nat) (v : Byte) :
    (a, v) ∈ m ↔ m.read a = v ∧ v ≠ Memory.unlisted a := by
  constructor
  · intro hm; exact ⟨Memory.read_of_mem h.1 hm, h.2 _ hm⟩
  · rintro ⟨h1, h2⟩
    by_contra hn
    refine h2 ?_
    rw [← h1]
    refine Memory.read_of_not_mem fun w hw => hn ?_
    rw [← h1, Memory.read_of_mem h.1 hw]; exact hw

/-- Two memories in canonical form that read the same everywhere are the same list. -/
theorem Memory.eq_of_read_eq {m m' : Memory} (h : m.wf) (h' : m'.wf)
    (hr : ∀ a, m.read a = m'.read a) : m = m' := by
  have hmem : ∀ c : Host.Cell, c ∈ m ↔ c ∈ m' := fun ⟨a, v⟩ => by
    rw [Memory.mem_iff_read h, Memory.mem_iff_read h', hr]
  have nd : ∀ {l : Memory}, l.Pairwise (fun c d => c.1 < d.1) → l.Nodup := fun hl =>
    hl.imp fun {c d} hcd he => by subst he; omega
  have hp : m.Perm m' := (List.perm_ext_iff_of_nodup (nd h.1) (nd h'.1)).mpr hmem
  exact hp.eq_of_pairwise (fun c d _ _ h1 h2 => absurd h1 (by omega)) h.1 h'.1

end Sys2Proof.Machine
end

