-- ==== Sys2Proof/Laws/Operands.lean ====
section
/-! SUPPORT. The laws of the plain functions of Machine/Operands.lean over memory: samples, cells and
their bytes, the pass order and the geometry. -/

namespace Sys2Proof.Machine

/-! ### Cells and bytes -/

/-- The two bytes of a cell, joined again (R67). -/
theorem cell_join (c : Cell16) : (c.extractLsb' 8 8 ++ c.extractLsb' 0 8 : BitVec 16) = c := by
  apply BitVec.eq_of_getLsbD_eq
  intro i hi
  rw [BitVec.getLsbD_append]
  by_cases h : i < 8
  · simp [h]
  · have h2 : i - 8 < 8 := by omega
    have h3 : 8 + (i - 8) = i := by omega
    simp [h, h2, h3]

theorem bytesOfCells_length (cs : List Cell16) : (bytesOfCells cs).length = 2 * cs.length := by
  induction cs with
  | nil => rfl
  | cons c cs ih => simp only [bytesOfCells, List.length_cons, ih]; omega

/-- The low byte of cell i. -/
theorem bytesOfCells_low (cs : List Cell16) (i : Nat) (hi : i < cs.length) :
    (bytesOfCells cs)[2 * i]'(by rw [bytesOfCells_length]; omega) = cs[i].extractLsb' 0 8 := by
  induction cs generalizing i with
  | nil => simp at hi
  | cons c cs ih =>
    cases i with
    | zero => rfl
    | succ i =>
      have := ih i (by simpa using hi)
      simpa [bytesOfCells, Nat.mul_add] using this

/-- The high byte of cell i. -/
theorem bytesOfCells_high (cs : List Cell16) (i : Nat) (hi : i < cs.length) :
    (bytesOfCells cs)[2 * i + 1]'(by rw [bytesOfCells_length]; omega) = cs[i].extractLsb' 8 8 := by
  induction cs generalizing i with
  | nil => simp at hi
  | cons c cs ih =>
    cases i with
    | zero => rfl
    | succ i =>
      have := ih i (by simpa using hi)
      simpa [bytesOfCells, Nat.mul_add] using this

/-- Stored cells read back. -/
theorem Memory.cell_store_inside {m : Memory} (hs : m.Pairwise (fun c d => c.1 < d.1)) (a : Nat)
    {cs : List Cell16} {i : Nat} (hi : i < cs.length) :
    (m.store a (bytesOfCells cs)).cell (a + 2 * i) = cs[i] := by
  have hlen := bytesOfCells_length cs
  unfold Memory.cell
  rw [show a + 2 * i + 1 = a + (2 * i + 1) by omega,
    Memory.read_store_inside hs a (i := 2 * i + 1) (by omega),
    Memory.read_store_inside hs a (i := 2 * i) (by omega),
    bytesOfCells_low cs i hi, bytesOfCells_high cs i hi, cell_join]

/-- A cell outside the stored block is as before. -/
theorem Memory.cell_store_outside {m : Memory} (hs : m.Pairwise (fun c d => c.1 < d.1)) {a x : Nat}
    {bs : List Byte} (hx : x + 1 < a ∨ a + bs.length ≤ x) : (m.store a bs).cell x = m.cell x := by
  unfold Memory.cell
  rw [Memory.read_store_outside hs (by omega), Memory.read_store_outside hs (by omega)]

theorem cellsOfBytes_map (f : Nat → Byte) (n : Nat) :
    cellsOfBytes ((List.range (2 * n)).map f) =
      (List.range n).map fun i => (f (2 * i + 1) ++ f (2 * i) : Cell16) := by
  induction n generalizing f with
  | zero => rfl
  | succ n ih =>
    rw [show 2 * (n + 1) = 2 * n + 1 + 1 by omega, List.range_succ_eq_map, List.range_succ_eq_map,
      List.range_succ_eq_map]
    simp only [List.map_cons, List.map_map, cellsOfBytes]
    refine congrArg₂ _ rfl ?_
    rw [ih]
    rfl

theorem samplesOf_map (f : Nat → Byte) (n : Nat) :
    samplesOf ((List.range (2 * n)).map f) =
      (List.range n).map fun i => (f (2 * i) ++ f (2 * i + 1) : Cell16) := by
  induction n generalizing f with
  | zero => rfl
  | succ n ih =>
    rw [show 2 * (n + 1) = 2 * n + 1 + 1 by omega, List.range_succ_eq_map, List.range_succ_eq_map,
      List.range_succ_eq_map]
    simp only [List.map_cons, List.map_map, samplesOf]
    refine congrArg₂ _ rfl ?_
    rw [ih]
    rfl

/-- The cells of a loaded window are the cells of memory. -/
theorem cellsOfBytes_load {m : Memory} (hs : m.Pairwise (fun c d => c.1 < d.1)) (a n : Nat) :
    cellsOfBytes (m.load a (2 * n)) = (List.range n).map fun i => m.cell (a + 2 * i) := by
  rw [Memory.load_eq_map_read hs, cellsOfBytes_map]
  rfl

/-! ### Payload words -/

/-- The payload of a stored packet, word by word (R90, R93). -/
theorem payloadOf_load {m : Memory} (hs : m.Pairwise (fun c d => c.1 < d.1)) (s p : Nat) :
    payloadOf (m.load (segstoreAddr (s - 1) p 0) 164) = (List.range 80).map (storedSample m s p) := by
  have hdrop : (m.load (segstoreAddr (s - 1) p 0) 164).drop 4 =
      (List.range (2 * 80)).map fun i => m.read (segstoreAddr (s - 1) p 0 + (4 + i)) := by
    rw [Memory.load_eq_map_read hs, ← List.map_drop]
    apply List.ext_getElem
    · simp
    · intro i h1 h2; simp
  unfold payloadOf
  rw [hdrop, samplesOf_map]
  refine List.map_congr_left fun k _ => ?_
  unfold storedSample segstoreAddr
  congr 2
  omega

/-- Words before the first zero, of a word sequence given by index (R153). -/
theorem keptOf_map_length (f : Nat → Cell16) (n k : Nat) (hk : k < n) :
    k < (keptOf ((List.range n).map f)).length ↔ ∀ l ≤ k, f l ≠ 0 := by
  induction n generalizing f k with
  | zero => omega
  | succ n ih =>
    rw [List.range_succ_eq_map, List.map_cons, List.map_map]
    by_cases h0 : f 0 = 0
    · have : keptOf (f 0 :: (List.range n).map (f ∘ Nat.succ)) = [] := by simp [keptOf, h0]
      rw [this]
      constructor
      · intro h; simp at h
      · intro h; exact absurd h0 (h 0 (by omega))
    · have : keptOf (f 0 :: (List.range n).map (f ∘ Nat.succ)) =
          f 0 :: keptOf ((List.range n).map (f ∘ Nat.succ)) :=
        List.takeWhile_cons_of_pos (by simpa using h0)
      rw [this, List.length_cons]
      cases k with
      | zero =>
        constructor
        · intro _ l hl; rw [Nat.le_zero.mp hl]; exact h0
        · intro _; omega
      | succ k =>
        have hsucc := ih (f ∘ Nat.succ) k (by omega)
        constructor
        · intro h l hl
          cases l with
          | zero => exact h0
          | succ l => exact hsucc.mp (by omega) l (by omega)
        · intro h
          have := hsucc.mpr fun l hl => h (l + 1) (by omega)
          omega

theorem keptOf_getElem (words : List Cell16) (k : Nat) (h : k < (keptOf words).length) :
    (keptOf words)[k] = words[k]'(Nat.lt_of_lt_of_le h (List.takeWhile_sublist _).length_le) :=
  List.IsPrefix.getElem (List.takeWhile_prefix _) h

theorem keptOf_length_le (words : List Cell16) : (keptOf words).length ≤ words.length :=
  (List.takeWhile_sublist _).length_le

/-- No kept word is the sentinel (R153). -/
theorem keptOf_ne_zero {words : List Cell16} {w : Cell16} (h : w ∈ keptOf words) : w ≠ 0 := by
  have := List.mem_takeWhile_imp h
  simpa using this

/-- Something is dropped exactly when a word is the sentinel (R153). -/
theorem keptOf_length_lt_iff (words : List Cell16) :
    (keptOf words).length < words.length ↔ ∃ w ∈ words, w = 0 := by
  induction words with
  | nil => simp [keptOf]
  | cons w ws ih =>
    by_cases h : w = 0
    · simp [keptOf, h]
    · have : keptOf (w :: ws) = w :: keptOf ws := List.takeWhile_cons_of_pos (by simpa using h)
      rw [this]
      simp only [List.length_cons, Nat.add_lt_add_iff_right, ih, List.mem_cons, exists_eq_or_imp, h,
        false_or]

/-! ### The pass order and the geometry -/

theorem mem_passOrder {sp : Nat × Nat} : sp ∈ passOrder ↔ (1 ≤ sp.1 ∧ sp.1 ≤ 4) ∧ sp.2 < 60 := by
  obtain ⟨s, p⟩ := sp
  unfold passOrder
  simp only [List.mem_flatMap, List.mem_map, List.mem_range, Prod.mk.injEq]
  constructor
  · rintro ⟨s', hs', p', hp', rfl, rfl⟩
    simp at hs'
    omega
  · rintro ⟨hs, hp⟩
    refine ⟨s, ?_, p, hp, rfl, rfl⟩
    simp; omega

/-- Each packet of the pass comes once. -/
theorem passOrder_nodup : passOrder.Nodup := by decide +kernel

/-- The half-row of packet p of segment s is one run of 80 cells, the runs in the order of the
packets (R94). -/
theorem halfRow_addr (s p : Nat) :
    cellAddr tframeBase (rowOf s p) (colOf p 0) = 0x30000 + 160 * (60 * (s - 1) + p) := by
  unfold cellAddr rowOf colOf tframeBase
  omega

/-- The cell of payload word k lies 2k bytes into its packet's half-row (R94). -/
theorem cellAddr_word (s p k : Nat) : cellAddr tframeBase (rowOf s p) (colOf p k) =
    cellAddr tframeBase (rowOf s p) (colOf p 0) + 2 * k := by
  unfold cellAddr colOf
  omega

end Sys2Proof.Machine
end

