-- ==== Sys2Proof/Laws/Compositor.lean ====
section
/-! SUPPORT. What one packet of the pass does, and by induction over the pass order what the whole pass
does: to memory, cell by cell, and to ZERO_CNT. -/

namespace Sys2Proof.Machine

/-- The words of packet p of segment s. -/
def wordsOf (m : Memory) (s p : Nat) : List Cell16 := (List.range 80).map (storedSample m s p)

/-- The words the pass writes from packet p of segment s. -/
def keptWords (m : Memory) (s p : Nat) : List Cell16 := keptOf (wordsOf m s p)

/-- The packet holds a sentinel. -/
def packetDrops (m : Memory) (sp : Nat × Nat) : Bool :=
  (List.range 80).any fun k => storedSample m sp.1 sp.2 k == 0

/-- Where packet p of segment s writes. -/
def halfRow (s p : Nat) : Nat := 0x30000 + 160 * (60 * (s - 1) + p)

theorem wordsOf_length (m : Memory) (s p : Nat) : (wordsOf m s p).length = 80 := by simp [wordsOf]

theorem keptWords_length_le (m : Memory) (s p : Nat) : (keptWords m s p).length ≤ 80 := by
  have := keptOf_length_le (wordsOf m s p)
  rwa [wordsOf_length] at this

/-- Word k is written exactly when it and every word before it is not the sentinel (R153). -/
theorem lt_keptWords_length_iff (m : Memory) (s p k : Nat) (hk : k < 80) :
    k < (keptWords m s p).length ↔ ∀ l ≤ k, storedSample m s p l ≠ 0 :=
  keptOf_map_length _ 80 k hk

theorem keptWords_getElem (m : Memory) (s p k : Nat) (h : k < (keptWords m s p).length) :
    (keptWords m s p)[k] = storedSample m s p k := by
  have h1 := keptOf_getElem (wordsOf m s p) k h
  have h2 : ∀ h', (wordsOf m s p)[k]'h' = storedSample m s p k := by simp [wordsOf]
  exact h1.trans (h2 _)

theorem keptWords_lt_iff (m : Memory) (s p : Nat) :
    (keptWords m s p).length < 80 ↔ packetDrops m (s, p) = true := by
  have h := keptOf_length_lt_iff (wordsOf m s p)
  rw [wordsOf_length] at h
  unfold keptWords
  rw [h]
  simp [wordsOf, packetDrops]

/-- One packet of the pass, in terms of the memory before it. -/
theorem passPacket_eq {d : PassData} (hs : d.mem.Pairwise (fun a b => a.1 < b.1)) (s p : Nat) :
    passPacket d s p =
      { mem := d.mem.store (halfRow s p) (bytesOfCells (keptWords d.mem s p))
        zeroCnt := if packetDrops d.mem (s, p) then d.zeroCnt + 1 else d.zeroCnt
        dropped := packetDrops d.mem (s, p) || d.dropped } := by
  unfold passPacket
  simp only [payloadOf_load hs, halfRow_addr]
  have hlen := wordsOf_length d.mem s p
  have hlt := keptWords_lt_iff d.mem s p
  unfold keptWords wordsOf at hlt
  unfold wordsOf at hlen
  simp only [hlen, hlt, halfRow, keptWords, wordsOf]
  by_cases hd : packetDrops d.mem (s, p) = true <;> simp [hd]

/-- The stored samples depend only on the bytes of SEGSTORE. -/
theorem storedSample_congr {m m' : Memory} (h : ∀ a, a < 0x30000 → m'.read a = m.read a) {s p k : Nat}
    (hs : s ≤ 4) (hp : p < 60) (hk : k < 80) : storedSample m' s p k = storedSample m s p k := by
  unfold storedSample segstoreAddr
  rw [h _ (by omega), h _ (by omega)]

theorem wordsOf_congr {m m' : Memory} (h : ∀ a, a < 0x30000 → m'.read a = m.read a) {s p : Nat}
    (hs : s ≤ 4) (hp : p < 60) : wordsOf m' s p = wordsOf m s p :=
  List.map_congr_left fun _ hk => storedSample_congr h hs hp (List.mem_range.mp hk)

theorem packetDrops_congr {m m' : Memory} (h : ∀ a, a < 0x30000 → m'.read a = m.read a)
    {sp : Nat × Nat} (hs : sp.1 ≤ 4) (hp : sp.2 < 60) : packetDrops m' sp = packetDrops m sp := by
  unfold packetDrops
  rw [Bool.eq_iff_iff]
  simp only [List.any_eq_true, List.mem_range, beq_iff_eq]
  constructor
  · rintro ⟨k, hk, h0⟩; exact ⟨k, hk, by rwa [storedSample_congr h hs hp hk] at h0⟩
  · rintro ⟨k, hk, h0⟩; exact ⟨k, hk, by rwa [storedSample_congr h hs hp hk]⟩

/-- Two packets of the pass write disjoint half-rows. -/
theorem halfRow_ne {s p s' p' : Nat} (hs : 1 ≤ s) (hs' : 1 ≤ s') (hp : p < 60) (hp' : p' < 60)
    (h : (s, p) ≠ (s', p')) : halfRow s p + 160 ≤ halfRow s' p' ∨ halfRow s' p' + 160 ≤ halfRow s p := by
  unfold halfRow
  have : 60 * (s - 1) + p ≠ 60 * (s' - 1) + p' := by
    intro he
    apply h
    have h1 : s = s' := by omega
    have h2 : p = p' := by omega
    rw [h1, h2]
  omega

/-- What a run of packets does, from memory `m0` on: memory stays canonical; bytes outside the
half-rows stay; each packet's kept words stand in its half-row and the rest of it stays; the drops are
counted. -/
structure PassSpec (m0 : Memory) (z0 : HostWord) (b0 : Bool) (l : List (Nat × Nat)) (d : PassData) :
    Prop where
  wf : d.mem.wf
  outside : ∀ a, (∀ sp ∈ l, a < halfRow sp.1 sp.2 ∨ halfRow sp.1 sp.2 + 160 ≤ a) →
    d.mem.read a = m0.read a
  kept : ∀ sp ∈ l, ∀ k (h : k < (keptWords m0 sp.1 sp.2).length),
    d.mem.cell (halfRow sp.1 sp.2 + 2 * k) = (keptWords m0 sp.1 sp.2)[k]
  rest : ∀ sp ∈ l, ∀ k, (keptWords m0 sp.1 sp.2).length ≤ k → k < 80 →
    d.mem.cell (halfRow sp.1 sp.2 + 2 * k) = m0.cell (halfRow sp.1 sp.2 + 2 * k)
  count : d.zeroCnt = z0 + BitVec.ofNat 32 (l.filter (packetDrops m0)).length
  flag : d.dropped = (b0 || l.any (packetDrops m0))

theorem halfRow_ge (s p : Nat) : 0x30000 ≤ halfRow s p := by unfold halfRow; omega

theorem PassSpec.below {m0 z0 b0 l d} (h : PassSpec m0 z0 b0 l d) (a : Nat) (ha : a < 0x30000) :
    d.mem.read a = m0.read a :=
  h.outside a fun sp _ => Or.inl (by have := halfRow_ge sp.1 sp.2; omega)

theorem PassSpec.snoc {m0 z0 b0 l d} (h : PassSpec m0 z0 b0 l d)
    (hl : ∀ sp ∈ l, 1 ≤ sp.1 ∧ sp.2 < 60) {s p : Nat} (hs : 1 ≤ s) (hs4 : s ≤ 4) (hp : p < 60)
    (hnew : (s, p) ∉ l) : PassSpec m0 z0 b0 (l ++ [(s, p)]) (passPacket d s p) := by
  have hsort := h.wf.1
  have hkeep : keptWords d.mem s p = keptWords m0 s p := by
    unfold keptWords
    rw [wordsOf_congr h.below hs4 hp]
  have hdrop : packetDrops d.mem (s, p) = packetDrops m0 (s, p) := packetDrops_congr h.below hs4 hp
  have hlen : (bytesOfCells (keptWords m0 s p)).length ≤ 160 := by
    rw [bytesOfCells_length]
    have := keptWords_length_le m0 s p
    omega
  rw [passPacket_eq hsort, hkeep, hdrop]
  have hapart : ∀ sp ∈ l, halfRow sp.1 sp.2 + 160 ≤ halfRow s p ∨
      halfRow s p + 160 ≤ halfRow sp.1 sp.2 := fun sp hsp =>
    halfRow_ne (hl sp hsp).1 hs (hl sp hsp).2 hp fun he => hnew (he ▸ hsp)
  refine ⟨Memory.store_wf h.wf _ _, fun a ha => ?_, fun sp hsp k hk => ?_, fun sp hsp k hk hk80 => ?_,
    ?_, ?_⟩
  · have h1 := ha (s, p) (by simp)
    rw [Memory.read_store_outside hsort (by simp only at h1; omega)]
    exact h.outside a fun sp hsp => ha sp (by simp [hsp])
  · rcases List.mem_append.mp hsp with hsp | hsp
    · have h1 := hapart sp hsp
      have h2 := keptWords_length_le m0 sp.1 sp.2
      rw [Memory.cell_store_outside hsort (by omega)]
      exact h.kept sp hsp k hk
    · obtain rfl : sp = (s, p) := by simpa using hsp
      exact Memory.cell_store_inside hsort _ hk
  · rcases List.mem_append.mp hsp with hsp | hsp
    · have h1 := hapart sp hsp
      rw [Memory.cell_store_outside hsort (by omega)]
      exact h.rest sp hsp k hk hk80
    · obtain rfl : sp = (s, p) := by simpa using hsp
      have hl2 := bytesOfCells_length (keptWords m0 s p)
      simp only at hk ⊢
      rw [Memory.cell_store_outside hsort (by omega)]
      have hold : ∀ x, halfRow s p ≤ x → x < halfRow s p + 160 → d.mem.read x = m0.read x :=
        fun x hx hx' => h.outside x fun sp hsp => by have := hapart sp hsp; omega
      unfold Memory.cell
      rw [hold _ (by omega) (by omega), hold _ (by omega) (by omega)]
  · simp only [h.count, List.filter_append, List.length_append]
    by_cases hd : packetDrops m0 (s, p) = true
    · simp [hd, BitVec.ofNat_add, BitVec.add_assoc]
    · simp [hd]
  · simp only [h.flag, List.any_append, List.any_cons, List.any_nil, Bool.or_false]
    cases packetDrops m0 (s, p) <;> cases b0 <;> simp

/-- The run of packets `l`, taken in order. -/
theorem passSpec_foldl (m0 : Memory) (z0 : HostWord) (b0 : Bool) (hm : m0.wf) (l : List (Nat × Nat))
    (hl : ∀ sp ∈ l, (1 ≤ sp.1 ∧ sp.1 ≤ 4) ∧ sp.2 < 60) (hn : l.Nodup) :
    PassSpec m0 z0 b0 l
      (l.foldl (fun d sp => passPacket d sp.1 sp.2) { mem := m0, zeroCnt := z0, dropped := b0 }) := by
  induction l using List.reverseRecOn with
  | nil =>
    refine ⟨hm, fun a _ => rfl, ?_, ?_, ?_, ?_⟩
    · intro sp hsp; cases hsp
    · intro sp hsp; cases hsp
    · simp
    · simp
  | append_singleton l sp ih =>
    rw [List.foldl_append]
    have hn' := List.nodup_append.mp hn
    have hnew : sp ∉ l := fun h => (hn'.2.2 sp h sp (by simp)) rfl
    have hprev := ih (fun x hx => hl x (by simp [hx])) hn'.1
    obtain ⟨⟨h1, h2⟩, h3⟩ := hl sp (by simp)
    exact hprev.snoc (fun x hx => ⟨(hl x (by simp [hx])).1.1, (hl x (by simp [hx])).2⟩) h1 h2 h3 hnew

/-- The whole pass (R150 to R157). -/
theorem compositePass_spec (m0 : Memory) (z0 : HostWord) (b0 : Bool) (hm : m0.wf) :
    PassSpec m0 z0 b0 passOrder (compositePass { mem := m0, zeroCnt := z0, dropped := b0 }) :=
  passSpec_foldl m0 z0 b0 hm passOrder (fun _ h => mem_passOrder.mp h) passOrder_nodup

/-- The pass writes nothing outside TFRAME. -/
theorem compositePass_outside {m0 : Memory} {z0 : HostWord} {b0 : Bool} (hm : m0.wf) {a : Nat}
    (ha : a < 0x30000 ∨ 0x39600 ≤ a) :
    (compositePass { mem := m0, zeroCnt := z0, dropped := b0 }).mem.read a = m0.read a := by
  refine (compositePass_spec m0 z0 b0 hm).outside a fun sp hsp => ?_
  obtain ⟨⟨h1, h2⟩, h3⟩ := mem_passOrder.mp hsp
  unfold halfRow
  omega

end Sys2Proof.Machine
end

