-- ==== Sys2Proof/Laws/Decode.lean ====
section
/-! SUPPORT. The fields of a request, and CMD_RANGE_DONE's mask as a condition on them. -/

namespace Sys2Proof

/-- A request bit by bit: WDATA, then ADDR, then WR (R102). -/
theorem hostReq_getLsbD (wr : BitVec 1) (addr : HostAddr) (wdata : HostWord) (i : Nat) :
    (hostReq wr addr wdata).getLsbD i =
      if i < 32 then wdata.getLsbD i
      else if i < 52 then addr.getLsbD (i - 32) else wr.getLsbD (i - 52) := by
  change (wr ++ addr ++ wdata : BitVec (1 + 20 + 32)).getLsbD i = _
  rw [BitVec.getLsbD_append, BitVec.getLsbD_append]
  by_cases h : i < 32
  · rw [if_pos h, if_pos h]
  · rw [if_neg h, if_neg h]
    by_cases h' : i < 52
    · rw [if_pos (by omega), if_pos h']
    · rw [if_neg (by omega), if_neg h']
      congr 1

@[simp] theorem reqWr_hostReq (wr : BitVec 1) (addr : HostAddr) (wdata : HostWord) :
    reqWr (hostReq wr addr wdata) = wr := by
  apply BitVec.eq_of_getLsbD_eq
  intro i hi
  have h0 : i = 0 := by omega
  subst h0
  rw [reqWr, BitVec.getLsbD_extractLsb', hostReq_getLsbD, if_neg (by omega), if_neg (by omega)]
  simp

@[simp] theorem reqAddr_hostReq (wr : BitVec 1) (addr : HostAddr) (wdata : HostWord) :
    reqAddr (hostReq wr addr wdata) = addr := by
  apply BitVec.eq_of_getLsbD_eq
  intro i hi
  rw [reqAddr, BitVec.getLsbD_extractLsb', hostReq_getLsbD, if_neg (by omega),
    if_pos (by omega), decide_eq_true hi, Bool.true_and]
  congr 1
  omega

@[simp] theorem reqData_hostReq (wr : BitVec 1) (addr : HostAddr) (wdata : HostWord) :
    reqData (hostReq wr addr wdata) = wdata := by
  apply BitVec.eq_of_getLsbD_eq
  intro i hi
  rw [reqData, BitVec.getLsbD_extractLsb', Nat.zero_add, hostReq_getLsbD, if_pos hi,
    decide_eq_true hi, Bool.true_and]

/-- A request is its three fields: no bit is dropped (R102). -/
theorem hostReq_fields (q : HostReq) : hostReq (reqWr q) (reqAddr q) (reqData q) = q := by
  apply BitVec.eq_of_getLsbD_eq
  intro i hi
  rw [hostReq_getLsbD]
  simp only [reqWr, reqAddr, reqData, BitVec.getLsbD_extractLsb']
  split
  · rename_i h
    rw [decide_eq_true h, Bool.true_and, Nat.zero_add]
  · split
    · rw [decide_eq_true (by omega), Bool.true_and]
      congr 1
      omega
    · rw [decide_eq_true (by omega), Bool.true_and]
      congr 1
      omega

theorem reqWr_eq_one_iff (q : HostReq) : reqWr q = 1 ↔ q.getLsbD 52 = true := by
  constructor
  · intro h
    have := congrArg (fun b : BitVec 1 => b.getLsbD 0) h
    simpa [reqWr] using this
  · intro h
    apply BitVec.eq_of_getLsbD_eq
    intro i hi
    have h0 : i = 0 := by omega
    subst h0
    simp [reqWr, h]

/-- The mask and match of CMD_RANGE_DONE's row: a write of code 0x01 to CMD (R102). -/
theorem rangeDone_mask_iff (q : HostReq) : q &&& 0x1FFFFF000000FF = 0x10001800000001 ↔
    reqWr q = 1 ∧ reqAddr q = 0x00018 ∧ (reqData q).extractLsb' 0 8 = 0x01 := by
  have hm : ∀ i, (0x1FFFFF000000FF#53).getLsbD i = decide (i < 8 ∨ (32 ≤ i ∧ i < 53)) := by
    intro i
    by_cases hi : i < 53
    · revert i; decide
    · rw [BitVec.getLsbD_of_ge _ _ (by omega)]; simp; omega
  constructor
  · intro h
    have hb : ∀ i, (q.getLsbD i && decide (i < 8 ∨ (32 ≤ i ∧ i < 53))) =
        (0x10001800000001#53).getLsbD i := by
      intro i
      rw [← hm, ← BitVec.getLsbD_and]
      exact congrArg (fun b : HostReq => b.getLsbD i) h
    refine ⟨?_, ?_, ?_⟩ <;> apply BitVec.eq_of_getLsbD_eq <;> intro i hi
    · have h0 : i = 0 := by omega
      subst h0
      simpa [reqWr] using hb 52
    · have := hb (32 + i)
      rw [decide_eq_true (by omega), Bool.and_true] at this
      simp only [reqAddr, BitVec.getLsbD_extractLsb', hi, decide_true, Bool.true_and]
      rw [this]
      clear this
      revert i; decide
    · have := hb i
      rw [decide_eq_true (by omega), Bool.and_true] at this
      simp only [reqData, BitVec.getLsbD_extractLsb', hi, decide_true, Bool.true_and, Nat.zero_add]
      rw [this, decide_eq_true (show i < 32 by omega), Bool.true_and]
      clear this
      revert i; decide
  · rintro ⟨h1, h2, h3⟩
    rw [← hostReq_fields q, h1, h2]
    apply BitVec.eq_of_getLsbD_eq
    intro i hi
    have hd : ∀ i < 8, (reqData q).getLsbD i = (0x01#8).getLsbD i := by
      intro i hi
      have := congrArg (fun b : BitVec 8 => b.getLsbD i) h3
      simpa [hi] using this
    rw [BitVec.getLsbD_and, hostReq_getLsbD]
    change (_ && (0x1FFFFF000000FF#53).getLsbD i) = (0x10001800000001#53).getLsbD i
    rw [hm]
    by_cases h8 : i < 8
    · rw [if_pos (by omega), hd i h8]
      revert i; decide
    · by_cases h32 : i < 32
      · rw [decide_eq_false (by omega), Bool.and_false]
        revert i; decide
      · rw [if_neg h32]
        revert i; decide

end Sys2Proof
end

