-- ==== Sys2Proof/Laws/State.lean ====
section
/-! SUPPORT. One lemma per field per named update of the state, so that no later proof unfolds an
update. -/

namespace Sys2Proof.Machine

variable (s : State)

/-! ### emit -/

@[simp] theorem State.emit_phase (es : List Event) : (s.emit es).phase = s.phase := rfl
@[simp] theorem State.emit_j (es : List Event) : (s.emit es).j = s.j := rfl
@[simp] theorem State.emit_resyncCnt (es : List Event) : (s.emit es).resyncCnt = s.resyncCnt := rfl
@[simp] theorem State.emit_wrongsegCnt (es : List Event) :
    (s.emit es).wrongsegCnt = s.wrongsegCnt := rfl
@[simp] theorem State.emit_zeroCnt (es : List Event) : (s.emit es).zeroCnt = s.zeroCnt := rfl
@[simp] theorem State.emit_rangeMin (es : List Event) : (s.emit es).rangeMin = s.rangeMin := rfl
@[simp] theorem State.emit_rangeMax (es : List Event) : (s.emit es).rangeMax = s.rangeMax := rfl
@[simp] theorem State.emit_rangeCtrl (es : List Event) : (s.emit es).rangeCtrl = s.rangeCtrl := rfl
@[simp] theorem State.emit_scaleSpan (es : List Event) : (s.emit es).scaleSpan = s.scaleSpan := rfl
@[simp] theorem State.emit_minL (es : List Event) : (s.emit es).minL = s.minL := rfl
@[simp] theorem State.emit_scaleHeld (es : List Event) : (s.emit es).scaleHeld = s.scaleHeld := rfl
@[simp] theorem State.emit_tpEn (es : List Event) : (s.emit es).tpEn = s.tpEn := rfl
@[simp] theorem State.emit_lastSegid (es : List Event) : (s.emit es).lastSegid = s.lastSegid := rfl
@[simp] theorem State.emit_evt (es : List Event) : (s.emit es).evt = s.evt := rfl
@[simp] theorem State.emit_presOrigin (es : List Event) :
    (s.emit es).presOrigin = s.presOrigin := rfl
@[simp] theorem State.emit_mem (es : List Event) : (s.emit es).mem = s.mem := rfl
@[simp] theorem State.emit_elapsedSig (es : List Event) :
    (s.emit es).elapsedSig = s.elapsedSig := rfl
@[simp] theorem State.emit_returnedSig (es : List Event) :
    (s.emit es).returnedSig = s.returnedSig := rfl
@[simp] theorem State.emit_history (es : List Event) : (s.emit es).history = s.history ++ es := rfl
@[simp] theorem State.emit_turns (es : List Event) : (s.emit es).turns = s.turns := rfl
@[simp] theorem State.emit_rxIn (es : List Event) : (s.emit es).rxIn = s.rxIn := rfl
@[simp] theorem State.emit_draws (es : List Event) : (s.emit es).draws = s.draws := rfl
@[simp] theorem State.emit_params (es : List Event) : (s.emit es).params = s.params := rfl

/-! ### goto -/

@[simp] theorem State.goto_phase (p : BitVec 4) : (s.goto p).phase = p := rfl
@[simp] theorem State.goto_j (p : BitVec 4) : (s.goto p).j = s.j := rfl
@[simp] theorem State.goto_resyncCnt (p : BitVec 4) : (s.goto p).resyncCnt = s.resyncCnt := rfl
@[simp] theorem State.goto_wrongsegCnt (p : BitVec 4) :
    (s.goto p).wrongsegCnt = s.wrongsegCnt := rfl
@[simp] theorem State.goto_zeroCnt (p : BitVec 4) : (s.goto p).zeroCnt = s.zeroCnt := rfl
@[simp] theorem State.goto_rangeMin (p : BitVec 4) : (s.goto p).rangeMin = s.rangeMin := rfl
@[simp] theorem State.goto_rangeMax (p : BitVec 4) : (s.goto p).rangeMax = s.rangeMax := rfl
@[simp] theorem State.goto_rangeCtrl (p : BitVec 4) : (s.goto p).rangeCtrl = s.rangeCtrl := rfl
@[simp] theorem State.goto_scaleSpan (p : BitVec 4) : (s.goto p).scaleSpan = s.scaleSpan := rfl
@[simp] theorem State.goto_minL (p : BitVec 4) : (s.goto p).minL = s.minL := rfl
@[simp] theorem State.goto_scaleHeld (p : BitVec 4) : (s.goto p).scaleHeld = s.scaleHeld := rfl
@[simp] theorem State.goto_tpEn (p : BitVec 4) : (s.goto p).tpEn = s.tpEn := rfl
@[simp] theorem State.goto_lastSegid (p : BitVec 4) : (s.goto p).lastSegid = s.lastSegid := rfl
@[simp] theorem State.goto_evt (p : BitVec 4) : (s.goto p).evt = s.evt := rfl
@[simp] theorem State.goto_presOrigin (p : BitVec 4) : (s.goto p).presOrigin = s.presOrigin := rfl
@[simp] theorem State.goto_mem (p : BitVec 4) : (s.goto p).mem = s.mem := rfl
@[simp] theorem State.goto_elapsedSig (p : BitVec 4) : (s.goto p).elapsedSig = s.elapsedSig := rfl
@[simp] theorem State.goto_returnedSig (p : BitVec 4) :
    (s.goto p).returnedSig = s.returnedSig := rfl
@[simp] theorem State.goto_history (p : BitVec 4) : (s.goto p).history = s.history := rfl
@[simp] theorem State.goto_turns (p : BitVec 4) : (s.goto p).turns = s.turns := rfl
@[simp] theorem State.goto_rxIn (p : BitVec 4) : (s.goto p).rxIn = s.rxIn := rfl
@[simp] theorem State.goto_draws (p : BitVec 4) : (s.goto p).draws = s.draws := rfl
@[simp] theorem State.goto_params (p : BitVec 4) : (s.goto p).params = s.params := rfl

/-! ### recordEvent -/

@[simp] theorem State.recordEvent_phase (code : BitVec 4) :
    (s.recordEvent code).phase = s.phase := rfl
@[simp] theorem State.recordEvent_j (code : BitVec 4) : (s.recordEvent code).j = s.j := rfl
@[simp] theorem State.recordEvent_resyncCnt (code : BitVec 4) :
    (s.recordEvent code).resyncCnt = s.resyncCnt := rfl
@[simp] theorem State.recordEvent_wrongsegCnt (code : BitVec 4) :
    (s.recordEvent code).wrongsegCnt = s.wrongsegCnt := rfl
@[simp] theorem State.recordEvent_zeroCnt (code : BitVec 4) :
    (s.recordEvent code).zeroCnt = s.zeroCnt := rfl
@[simp] theorem State.recordEvent_rangeMin (code : BitVec 4) :
    (s.recordEvent code).rangeMin = s.rangeMin := rfl
@[simp] theorem State.recordEvent_rangeMax (code : BitVec 4) :
    (s.recordEvent code).rangeMax = s.rangeMax := rfl
@[simp] theorem State.recordEvent_rangeCtrl (code : BitVec 4) :
    (s.recordEvent code).rangeCtrl = s.rangeCtrl := rfl
@[simp] theorem State.recordEvent_scaleSpan (code : BitVec 4) :
    (s.recordEvent code).scaleSpan = s.scaleSpan := rfl
@[simp] theorem State.recordEvent_minL (code : BitVec 4) : (s.recordEvent code).minL = s.minL := rfl
@[simp] theorem State.recordEvent_scaleHeld (code : BitVec 4) :
    (s.recordEvent code).scaleHeld = s.scaleHeld := rfl
@[simp] theorem State.recordEvent_tpEn (code : BitVec 4) : (s.recordEvent code).tpEn = s.tpEn := rfl
@[simp] theorem State.recordEvent_lastSegid (code : BitVec 4) :
    (s.recordEvent code).lastSegid = s.lastSegid := rfl
@[simp] theorem State.recordEvent_evt (code : BitVec 4) : (s.recordEvent code).evt = code := rfl
@[simp] theorem State.recordEvent_presOrigin (code : BitVec 4) :
    (s.recordEvent code).presOrigin = s.presOrigin := rfl
@[simp] theorem State.recordEvent_mem (code : BitVec 4) : (s.recordEvent code).mem = s.mem := rfl
@[simp] theorem State.recordEvent_elapsedSig (code : BitVec 4) :
    (s.recordEvent code).elapsedSig = s.elapsedSig := rfl
@[simp] theorem State.recordEvent_returnedSig (code : BitVec 4) :
    (s.recordEvent code).returnedSig = s.returnedSig := rfl
@[simp] theorem State.recordEvent_history (code : BitVec 4) :
    (s.recordEvent code).history = s.history ++ [.errEvent code] := rfl
@[simp] theorem State.recordEvent_turns (code : BitVec 4) :
    (s.recordEvent code).turns = s.turns := rfl
@[simp] theorem State.recordEvent_rxIn (code : BitVec 4) : (s.recordEvent code).rxIn = s.rxIn := rfl
@[simp] theorem State.recordEvent_draws (code : BitVec 4) :
    (s.recordEvent code).draws = s.draws := rfl
@[simp] theorem State.recordEvent_params (code : BitVec 4) :
    (s.recordEvent code).params = s.params := rfl

/-! ### delayUs -/

@[simp] theorem State.delayUs_phase (n : Nat) : (s.delayUs n).phase = s.phase := rfl
@[simp] theorem State.delayUs_j (n : Nat) : (s.delayUs n).j = s.j := rfl
@[simp] theorem State.delayUs_resyncCnt (n : Nat) : (s.delayUs n).resyncCnt = s.resyncCnt := rfl
@[simp] theorem State.delayUs_wrongsegCnt (n : Nat) :
    (s.delayUs n).wrongsegCnt = s.wrongsegCnt := rfl
@[simp] theorem State.delayUs_zeroCnt (n : Nat) : (s.delayUs n).zeroCnt = s.zeroCnt := rfl
@[simp] theorem State.delayUs_rangeMin (n : Nat) : (s.delayUs n).rangeMin = s.rangeMin := rfl
@[simp] theorem State.delayUs_rangeMax (n : Nat) : (s.delayUs n).rangeMax = s.rangeMax := rfl
@[simp] theorem State.delayUs_rangeCtrl (n : Nat) : (s.delayUs n).rangeCtrl = s.rangeCtrl := rfl
@[simp] theorem State.delayUs_scaleSpan (n : Nat) : (s.delayUs n).scaleSpan = s.scaleSpan := rfl
@[simp] theorem State.delayUs_minL (n : Nat) : (s.delayUs n).minL = s.minL := rfl
@[simp] theorem State.delayUs_scaleHeld (n : Nat) : (s.delayUs n).scaleHeld = s.scaleHeld := rfl
@[simp] theorem State.delayUs_tpEn (n : Nat) : (s.delayUs n).tpEn = s.tpEn := rfl
@[simp] theorem State.delayUs_lastSegid (n : Nat) : (s.delayUs n).lastSegid = s.lastSegid := rfl
@[simp] theorem State.delayUs_evt (n : Nat) : (s.delayUs n).evt = s.evt := rfl
@[simp] theorem State.delayUs_presOrigin (n : Nat) : (s.delayUs n).presOrigin = s.presOrigin := rfl
@[simp] theorem State.delayUs_mem (n : Nat) : (s.delayUs n).mem = s.mem := rfl
@[simp] theorem State.delayUs_elapsedSig (n : Nat) : (s.delayUs n).elapsedSig = s.elapsedSig := rfl
@[simp] theorem State.delayUs_returnedSig (n : Nat) :
    (s.delayUs n).returnedSig = s.returnedSig := rfl
@[simp] theorem State.delayUs_history (n : Nat) :
    (s.delayUs n).history = s.history ++ [.delayReq n] := rfl
@[simp] theorem State.delayUs_turns (n : Nat) : (s.delayUs n).turns = s.turns := rfl
@[simp] theorem State.delayUs_rxIn (n : Nat) : (s.delayUs n).rxIn = s.rxIn := rfl
@[simp] theorem State.delayUs_draws (n : Nat) : (s.delayUs n).draws = s.draws := rfl
@[simp] theorem State.delayUs_params (n : Nat) : (s.delayUs n).params = s.params := rfl

/-! ### rxTaken -/

@[simp] theorem State.rxTaken_phase (n : Nat) : (s.rxTaken n).phase = s.phase := rfl
@[simp] theorem State.rxTaken_j (n : Nat) : (s.rxTaken n).j = s.j := rfl
@[simp] theorem State.rxTaken_resyncCnt (n : Nat) : (s.rxTaken n).resyncCnt = s.resyncCnt := rfl
@[simp] theorem State.rxTaken_wrongsegCnt (n : Nat) :
    (s.rxTaken n).wrongsegCnt = s.wrongsegCnt := rfl
@[simp] theorem State.rxTaken_zeroCnt (n : Nat) : (s.rxTaken n).zeroCnt = s.zeroCnt := rfl
@[simp] theorem State.rxTaken_rangeMin (n : Nat) : (s.rxTaken n).rangeMin = s.rangeMin := rfl
@[simp] theorem State.rxTaken_rangeMax (n : Nat) : (s.rxTaken n).rangeMax = s.rangeMax := rfl
@[simp] theorem State.rxTaken_rangeCtrl (n : Nat) : (s.rxTaken n).rangeCtrl = s.rangeCtrl := rfl
@[simp] theorem State.rxTaken_scaleSpan (n : Nat) : (s.rxTaken n).scaleSpan = s.scaleSpan := rfl
@[simp] theorem State.rxTaken_minL (n : Nat) : (s.rxTaken n).minL = s.minL := rfl
@[simp] theorem State.rxTaken_scaleHeld (n : Nat) : (s.rxTaken n).scaleHeld = s.scaleHeld := rfl
@[simp] theorem State.rxTaken_tpEn (n : Nat) : (s.rxTaken n).tpEn = s.tpEn := rfl
@[simp] theorem State.rxTaken_lastSegid (n : Nat) : (s.rxTaken n).lastSegid = s.lastSegid := rfl
@[simp] theorem State.rxTaken_evt (n : Nat) : (s.rxTaken n).evt = s.evt := rfl
@[simp] theorem State.rxTaken_presOrigin (n : Nat) : (s.rxTaken n).presOrigin = s.presOrigin := rfl
@[simp] theorem State.rxTaken_mem (n : Nat) : (s.rxTaken n).mem = s.mem := rfl
@[simp] theorem State.rxTaken_elapsedSig (n : Nat) : (s.rxTaken n).elapsedSig = s.elapsedSig := rfl
@[simp] theorem State.rxTaken_returnedSig (n : Nat) :
    (s.rxTaken n).returnedSig = s.returnedSig := rfl
@[simp] theorem State.rxTaken_history (n : Nat) : (s.rxTaken n).history = s.history := rfl
@[simp] theorem State.rxTaken_turns (n : Nat) : (s.rxTaken n).turns = s.turns := rfl
@[simp] theorem State.rxTaken_rxIn (n : Nat) : (s.rxTaken n).rxIn = s.rxIn.drop n := rfl
@[simp] theorem State.rxTaken_draws (n : Nat) :
    (s.rxTaken n).draws = s.draws + (n - s.rxIn.length) := rfl
@[simp] theorem State.rxTaken_params (n : Nat) : (s.rxTaken n).params = s.params := rfl

/-! ### popTurn -/

@[simp] theorem State.popTurn_phase : (s.popTurn).phase = s.phase := rfl
@[simp] theorem State.popTurn_j : (s.popTurn).j = s.j := rfl
@[simp] theorem State.popTurn_resyncCnt : (s.popTurn).resyncCnt = s.resyncCnt := rfl
@[simp] theorem State.popTurn_wrongsegCnt : (s.popTurn).wrongsegCnt = s.wrongsegCnt := rfl
@[simp] theorem State.popTurn_zeroCnt : (s.popTurn).zeroCnt = s.zeroCnt := rfl
@[simp] theorem State.popTurn_rangeMin : (s.popTurn).rangeMin = s.rangeMin := rfl
@[simp] theorem State.popTurn_rangeMax : (s.popTurn).rangeMax = s.rangeMax := rfl
@[simp] theorem State.popTurn_rangeCtrl : (s.popTurn).rangeCtrl = s.rangeCtrl := rfl
@[simp] theorem State.popTurn_scaleSpan : (s.popTurn).scaleSpan = s.scaleSpan := rfl
@[simp] theorem State.popTurn_minL : (s.popTurn).minL = s.minL := rfl
@[simp] theorem State.popTurn_scaleHeld : (s.popTurn).scaleHeld = s.scaleHeld := rfl
@[simp] theorem State.popTurn_tpEn : (s.popTurn).tpEn = s.tpEn := rfl
@[simp] theorem State.popTurn_lastSegid : (s.popTurn).lastSegid = s.lastSegid := rfl
@[simp] theorem State.popTurn_evt : (s.popTurn).evt = s.evt := rfl
@[simp] theorem State.popTurn_presOrigin : (s.popTurn).presOrigin = s.presOrigin := rfl
@[simp] theorem State.popTurn_mem : (s.popTurn).mem = s.mem := rfl
@[simp] theorem State.popTurn_elapsedSig : (s.popTurn).elapsedSig = s.elapsedSig := rfl
@[simp] theorem State.popTurn_returnedSig : (s.popTurn).returnedSig = s.returnedSig := rfl
@[simp] theorem State.popTurn_history : (s.popTurn).history = s.history := rfl
@[simp] theorem State.popTurn_turns : (s.popTurn).turns = s.turns.tail := rfl
@[simp] theorem State.popTurn_rxIn : (s.popTurn).rxIn = s.rxIn := rfl
@[simp] theorem State.popTurn_draws : (s.popTurn).draws = s.draws := rfl
@[simp] theorem State.popTurn_params : (s.popTurn).params = s.params := rfl

/-! ### The scale latch: what it never touches (R170) -/

@[simp] theorem State.scaleLatch_phase : s.scaleLatch.phase = s.phase := by
  unfold State.scaleLatch; split <;> rfl
@[simp] theorem State.scaleLatch_j : s.scaleLatch.j = s.j := by
  unfold State.scaleLatch; split <;> rfl
@[simp] theorem State.scaleLatch_resyncCnt : s.scaleLatch.resyncCnt = s.resyncCnt := by
  unfold State.scaleLatch; split <;> rfl
@[simp] theorem State.scaleLatch_wrongsegCnt : s.scaleLatch.wrongsegCnt = s.wrongsegCnt := by
  unfold State.scaleLatch; split <;> rfl
@[simp] theorem State.scaleLatch_zeroCnt : s.scaleLatch.zeroCnt = s.zeroCnt := by
  unfold State.scaleLatch; split <;> rfl
@[simp] theorem State.scaleLatch_rangeMin : s.scaleLatch.rangeMin = s.rangeMin := by
  unfold State.scaleLatch; split <;> rfl
@[simp] theorem State.scaleLatch_rangeMax : s.scaleLatch.rangeMax = s.rangeMax := by
  unfold State.scaleLatch; split <;> rfl
@[simp] theorem State.scaleLatch_rangeCtrl : s.scaleLatch.rangeCtrl = s.rangeCtrl := by
  unfold State.scaleLatch; split <;> rfl
@[simp] theorem State.scaleLatch_tpEn : s.scaleLatch.tpEn = s.tpEn := by
  unfold State.scaleLatch; split <;> rfl
@[simp] theorem State.scaleLatch_lastSegid : s.scaleLatch.lastSegid = s.lastSegid := by
  unfold State.scaleLatch; split <;> rfl
@[simp] theorem State.scaleLatch_presOrigin : s.scaleLatch.presOrigin = s.presOrigin := by
  unfold State.scaleLatch; split <;> rfl
@[simp] theorem State.scaleLatch_mem : s.scaleLatch.mem = s.mem := by
  unfold State.scaleLatch; split <;> rfl
@[simp] theorem State.scaleLatch_elapsedSig : s.scaleLatch.elapsedSig = s.elapsedSig := by
  unfold State.scaleLatch; split <;> rfl
@[simp] theorem State.scaleLatch_returnedSig : s.scaleLatch.returnedSig = s.returnedSig := by
  unfold State.scaleLatch; split <;> rfl
@[simp] theorem State.scaleLatch_turns : s.scaleLatch.turns = s.turns := by
  unfold State.scaleLatch; split <;> rfl
@[simp] theorem State.scaleLatch_rxIn : s.scaleLatch.rxIn = s.rxIn := by
  unfold State.scaleLatch; split <;> rfl
@[simp] theorem State.scaleLatch_draws : s.scaleLatch.draws = s.draws := by
  unfold State.scaleLatch; split <;> rfl
@[simp] theorem State.scaleLatch_params : s.scaleLatch.params = s.params := by
  unfold State.scaleLatch; split <;> rfl

@[simp] theorem State.scaleLatch_minL : s.scaleLatch.minL = s.rangeMin := by
  unfold State.scaleLatch; split <;> rfl

/-! ### The views of the state that an update leaves alone -/

@[simp] theorem State.dispatchWord_popTurn : s.popTurn.dispatchWord = s.dispatchWord := rfl
@[simp] theorem State.autoRange_popTurn : s.popTurn.autoRange = s.autoRange := rfl
@[simp] theorem State.bitK_popTurn : s.popTurn.bitK = s.bitK := rfl
@[simp] theorem State.bitM_popTurn : s.popTurn.bitM = s.bitM := rfl
@[simp] theorem State.bitV_popTurn : s.popTurn.bitV = s.bitV := rfl
@[simp] theorem State.bitT_popTurn : s.popTurn.bitT = s.bitT := rfl
@[simp] theorem State.stagedSegid_popTurn : s.popTurn.stagedSegid = s.stagedSegid := rfl

end Sys2Proof.Machine
end

