-- ==== Sys2Proof/Laws/Dispatch.lean ====
section
/-! SUPPORT. The dispatch word in terms of PHASE and the bits M, T, V, K, and the operation each
combination selects. -/

namespace Sys2Proof.Machine

/-- The operation for a PHASE and the four bits: R99 and R101 read as a function. -/
def selectedBy (p : BitVec 4) (m t v k : Bool) : Except DecodeError Instr :=
  match p.toNat with
  | 0 => .ok .pktRecv
  | 1 => .ok (if m then .pktAccept else .pktMismatch)
  | 2 => if k then .ok (if t then .busRecoverBegin else .resyncResume) else .error .hold
  | 3 => if k then .ok .busRecoverEnd else .error .hold
  | 4 => .ok (if v then .segCommit else .segReject)
  | 5 => .ok .composite
  | 6 => .error .hold
  | 7 => .ok .colorize
  | 8 => if k then .ok .presentDone else .error .hold
  | _ => .error .reservedPhase

/-- The dispatch word of R98 decodes to the operation of its PHASE and bits. -/
theorem decodeDispatch_assembled : ∀ (p : BitVec 4) (m t v k : Bool),
    decodeDispatch (0#7 ++ BitVec.ofBool k ++ 0#1 ++ BitVec.ofBool v ++ BitVec.ofBool t
      ++ BitVec.ofBool m ++ p : BitVec 16) = selectedBy p m t v k := by
  decide +kernel

theorem decodeDispatch_dispatchWord (s : State) :
    decodeDispatch s.dispatchWord = selectedBy s.phase s.bitM s.bitT s.bitV s.bitK :=
  decodeDispatch_assembled _ _ _ _ _

theorem phaseReserved_eq_false_iff (p : BitVec 4) : phaseReserved p = false ↔ p.toNat ≤ 8 := by
  unfold phaseReserved
  simp
  omega

theorem phaseReserved_iff (p : BitVec 4) : phaseReserved p = true ↔ 9 ≤ p.toNat := by
  unfold phaseReserved
  simp

/-- A legal PHASE is one of the nine. -/
theorem phase_cases {p : BitVec 4} (h : p.toNat ≤ 8) :
    p = phAcq ∨ p = phCheck ∨ p = phResyncWait ∨ p = phRecoverWait ∨ p = phSegCheck ∨
      p = phComposite ∨ p = phRangeWait ∨ p = phColorize ∨ p = phPresentWait := by
  revert p
  decide

end Sys2Proof.Machine
end

