-- ==== Sys2Proof/Laws/HostPort.lean ====
section
/-! SUPPORT. Everything a host transaction can do to the state, case by case. -/

namespace Sys2Proof.Machine

/-- The scale latch, both cases (R170). -/
theorem State.scaleLatch_cases (s : State) :
    (s.rangeMin.toNat < s.rangeMax.toNat ∧ s.scaleLatch = { s with
      scaleSpan := s.rangeMax - s.rangeMin, scaleHeld := false, minL := s.rangeMin }) ∨
    (s.rangeMax.toNat ≤ s.rangeMin.toNat ∧ s.scaleLatch = { s with
      scaleHeld := true, minL := s.rangeMin, evt := evSpanDegenerate,
      history := s.history ++ [.errEvent evSpanDegenerate] }) := by
  unfold State.scaleLatch
  by_cases h : s.rangeMin.toNat < s.rangeMax.toNat
  · left; exact ⟨h, if_pos h⟩
  · right; refine ⟨by omega, ?_⟩; rw [if_neg h]; rfl

/-- A read leaves the state as it was but for the count of draws (R71). -/
theorem State.hostLoad_state (s : State) (a : Nat) :
    (s.hostLoad a).2 = s ∨ (s.hostLoad a).2 = { s with draws := s.draws + 4 } := by
  unfold State.hostLoad
  split
  · exact Or.inl rfl
  · split
    · split <;> exact Or.inl rfl
    · split
      · exact Or.inl rfl
      · split
        · exact Or.inr rfl
        · exact Or.inl rfl

/-- A write to CMD either has the effect of R175, in RANGE_WAIT with code 0x01, or none. -/
theorem State.command_cases (s : State) (code : Byte) :
    (code = 0x01 ∧ s.phase = phRangeWait ∧
      s.command code = (Resp.ok 0, s.scaleLatch.goto phColorize)) ∨
    (¬(code = 0x01 ∧ s.phase = phRangeWait) ∧ s.command code = (Resp.error, s)) := by
  unfold State.command
  by_cases h : code = 0x01 ∧ s.phase = phRangeWait
  · left; exact ⟨h.1, h.2, if_pos h⟩
  · right; exact ⟨h, if_neg h⟩

/-- Everything a write can do: ERR and nothing, a read-write register, a command, or four bytes of
PALETTE outside COLORIZE (R201). -/
theorem State.hostStore_cases (s : State) (a : Nat) (v : HostWord) :
    s.hostStore a v = (Resp.error, s) ∨
    (a = 0x004 ∧ s.hostStore a v = (Resp.ok 0, { s with rangeCtrl := v.extractLsb' 0 2 })) ∨
    (a = 0x008 ∧ s.hostStore a v = (Resp.ok 0, { s with rangeMin := v.extractLsb' 0 16 })) ∨
    (a = 0x00C ∧ s.hostStore a v = (Resp.ok 0, { s with rangeMax := v.extractLsb' 0 16 })) ∨
    (a = 0x01C ∧ s.hostStore a v = (Resp.ok 0, { s with presOrigin := v })) ∨
    (a = 0x018 ∧ s.hostStore a v = s.command (v.extractLsb' 0 8)) ∨
    (0x01000 ≤ a ∧ a ≤ 0x012FC ∧ a % 4 = 0 ∧ s.phase ≠ phColorize ∧
      s.hostStore a v = (Resp.ok 0, { s with mem := s.mem.store a (bytesOfHostWord v) })) := by
  unfold State.hostStore
  by_cases h0 : a % 4 ≠ 0
  · left; rw [if_pos h0]
  rw [if_neg h0]
  by_cases h1 : a = 0x004
  · right; left; exact ⟨h1, if_pos h1⟩
  rw [if_neg h1]
  by_cases h2 : a = 0x008
  · right; right; left; exact ⟨h2, if_pos h2⟩
  rw [if_neg h2]
  by_cases h3 : a = 0x00C
  · right; right; right; left; exact ⟨h3, if_pos h3⟩
  rw [if_neg h3]
  by_cases h4 : a = 0x01C
  · right; right; right; right; left; exact ⟨h4, if_pos h4⟩
  rw [if_neg h4]
  by_cases h5 : a = 0x018
  · right; right; right; right; right; left; exact ⟨h5, if_pos h5⟩
  rw [if_neg h5]
  by_cases h6 : 0x01000 ≤ a ∧ a ≤ 0x012FC
  · rw [if_pos h6]
    by_cases h7 : s.phase = phColorize
    · left; rw [if_pos h7]
    · right; right; right; right; right; right
      refine ⟨h6.1, h6.2, ?_, h7, if_neg h7⟩
      simpa using h0
  · left; rw [if_neg h6]

theorem completeHost_eq (req : HostReq) (r : Resp × State) :
    completeHost req r = { r.2 with history := r.2.history ++ [.host req r.1] } := rfl

/-- An aligned address inside a window is found in that window (R66). -/
theorem windows_find {w : Window} (hw : w ∈ windows) {a : Nat} (ha : w.holds a = true) :
    windows.find? (·.holds a) = some w := by
  unfold windows Window.holds at *
  simp only [Bool.and_eq_true, decide_eq_true_eq] at ha
  simp only [List.mem_cons, List.not_mem_nil, or_false] at hw
  rcases hw with rfl | rfl | rfl | rfl | rfl | rfl <;> simp only at ha <;>
    simp [List.find?] <;>
    (repeat' split) <;> simp_all <;> omega

end Sys2Proof.Machine
end

