-- ==== Sys2Proof/Laws/PerInstr.lean ====
section
/-! SUPPORT. Facts about every operation as syntax, one lemma per constructor. -/

namespace Sys2Proof.Laws.EncodingShape

/-- The word of an operation. A dispatch word has the bits that R98 fixes at 0 at 0, and a legal PHASE
(R100). A request has WR = 0 exactly for HOST_READ, and carries the operands in its fields (R102). -/
def Statement (i : Instr) : Prop :=
  match encode i with
  | .dispatch d => d &&& 0xFE80 = 0 ∧ phaseReserved (d.extractLsb' 0 4) = false
  | .host q =>
    (reqWr q = 0 ∧ i = .hostRead (reqAddr q) (reqData q)) ∨
    (reqWr q = 1 ∧ i = .hostWrite (reqAddr q) (reqData q)) ∨
    (reqWr q = 1 ∧ reqAddr q = 0x00018 ∧
      ∃ wdataHi, reqData q = rangeDoneData wdataHi ∧ i = .cmdRangeDone wdataHi)

theorem pktRecv : Statement .pktRecv := ⟨by decide, by decide⟩

theorem pktAccept : Statement .pktAccept := ⟨by decide, by decide⟩

theorem pktMismatch : Statement .pktMismatch := ⟨by decide, by decide⟩

theorem resyncResume : Statement .resyncResume := ⟨by decide, by decide⟩

theorem busRecoverBegin : Statement .busRecoverBegin := ⟨by decide, by decide⟩

theorem busRecoverEnd : Statement .busRecoverEnd := ⟨by decide, by decide⟩

theorem segReject : Statement .segReject := ⟨by decide, by decide⟩

theorem segCommit : Statement .segCommit := ⟨by decide, by decide⟩

theorem composite : Statement .composite := ⟨by decide, by decide⟩

theorem colorize : Statement .colorize := ⟨by decide, by decide⟩

theorem presentDone : Statement .presentDone := ⟨by decide, by decide⟩

theorem hostRead (addr : HostAddr) (wdata : HostWord) : Statement (.hostRead addr wdata) := by
  simp [Statement, encode]

theorem hostWrite (addr : HostAddr) (wdata : HostWord) : Statement (.hostWrite addr wdata) := by
  simp [Statement, encode]

theorem cmdRangeDone (wdataHi : BitVec 24) : Statement (.cmdRangeDone wdataHi) := by
  simp [Statement, encode]

end Sys2Proof.Laws.EncodingShape
end

