-- ==== Sys2Proof/Laws/Step.lean ====
section
/-! SUPPORT. What one step can do, said once: whose turn it was and which meaning ran, and what became of
memory. -/

namespace Sys2Proof.Machine

/-- TRANSPORT answers every transceive: n bytes for n of them (R11, R204). -/
theorem State.rxBytes_length (s : State) (n : Nat) : (s.rxBytes n).length = n := by
  unfold State.rxBytes
  simp
  omega

/-- The i-th byte: laid out, or free (log 4). -/
theorem State.rxBytes_getElem? (s : State) (n i : Nat) (hi : i < n) : (s.rxBytes n)[i]? =
    some (if i < s.rxIn.length then s.rxIn.getD i 0
      else Config.freeByte (s.draws + (i - s.rxIn.length))) := by
  unfold State.rxBytes
  rw [List.getElem?_append]
  by_cases h : i < s.rxIn.length
  · rw [if_pos (by simp; omega), if_pos h]
    simp [hi, h]
  · rw [if_neg (by simp; omega), if_neg h]
    have hml : min n s.rxIn.length = s.rxIn.length := by omega
    simp only [List.length_take, hml, List.getElem?_map]
    rw [List.getElem?_range (by omega)]
    rfl

theorem State.popTurn_of_nil {s : State} (h : s.turns = []) : s.popTurn = s := by
  unfold State.popTurn
  rw [h]
  cases s
  simp_all

/-- CORE's turn, laid out or not, runs on the state with that turn taken off. -/
theorem agentTurn_core {s : State} (h : s.coreNext) : agentTurn s = coreTurn s.popTurn := by
  unfold agentTurn
  rcases h with h | h
  · rw [State.popTurn_of_nil h, h]; rfl
  · rw [h]

theorem step_of_legalPhase {s : State} (h : s.phase.toNat ≤ 8) : step s = agentTurn s := by
  unfold step
  rw [(phaseReserved_eq_false_iff _).mpr h]
  rfl

theorem phase_of_step {s t : State} (h : step s = .next t) : s.phase.toNat ≤ 8 := by
  unfold step at h
  cases hp : phaseReserved s.phase with
  | false => exact (phaseReserved_eq_false_iff _).mp hp
  | true => rw [hp] at h; cases h

/-- CORE's turn by PHASE and the four bits. -/
theorem coreTurn_popTurn (s : State) : coreTurn s.popTurn =
    match selectedBy s.phase s.bitM s.bitT s.bitV s.bitK with
    | .ok i => exec i s.popTurn
    | .error .reservedPhase => .fault .reservedPhase
    | .error _ => .next s.popTurn := by
  unfold coreTurn
  rw [State.dispatchWord_popTurn, decodeDispatch_dispatchWord]
  all_goals rfl

/-- What a step that answers a next state did. -/
inductive StepCase (s t : State) : Prop where
  | hold (hc : s.coreNext) (h : selectedBy s.phase s.bitM s.bitT s.bitV s.bitK = .error .hold)
      (ht : t = s.popTurn)
  | core (i : Instr) (hc : s.coreNext)
      (h : selectedBy s.phase s.bitM s.bitT s.bitV s.bitK = .ok i)
      (ht : exec i s.popTurn = .next t)
  | host (q : HostReq) (h : s.turns.head? = some (.host q))
      (ht : exec (decodeHost q) s.popTurn = .next t)
  | delay (h : s.turns.head? = some .elapsed) (ht : t = s.popTurn.delayTurn)
  | sink (h : s.turns.head? = some .returned) (ht : t = s.popTurn.sinkTurn)

theorem step_cases {s t : State} (h : step s = .next t) : StepCase s t := by
  rw [step_of_legalPhase (phase_of_step h)] at h
  by_cases hc : s.coreNext
  · rw [agentTurn_core hc, coreTurn_popTurn] at h
    cases hsel : selectedBy s.phase s.bitM s.bitT s.bitV s.bitK with
    | ok i => rw [hsel] at h; exact .core i hc hsel h
    | error e =>
      rw [hsel] at h
      cases e with
      | hold => exact .hold hc hsel (by cases h; rfl)
      | reservedPhase => cases h
      | tooWide =>
        exfalso
        unfold selectedBy at hsel
        split at hsel <;> (try split at hsel) <;> cases hsel
  · unfold State.coreNext at hc
    unfold agentTurn at h
    cases hh : s.turns.head? with
    | none => exact absurd (Or.inl (List.head?_eq_none_iff.mp hh)) hc
    | some a =>
      rw [hh] at h
      cases a with
      | core => exact absurd (Or.inr hh) hc
      | host q => exact .host q hh h
      | elapsed => exact .delay hh (by cases h; rfl)
      | returned => exact .sink hh (by cases h; rfl)

/-- The CORE operations by the condition that selects them (R99). -/
inductive CoreCase (s : State) : Instr → Prop where
  | pktRecv (hp : s.phase = phAcq) : CoreCase s .pktRecv
  | pktAccept (hp : s.phase = phCheck) (hm : s.bitM = true) : CoreCase s .pktAccept
  | pktMismatch (hp : s.phase = phCheck) (hm : s.bitM = false) : CoreCase s .pktMismatch
  | resyncResume (hp : s.phase = phResyncWait) (hk : s.bitK = true) (ht : s.bitT = false) :
      CoreCase s .resyncResume
  | busRecoverBegin (hp : s.phase = phResyncWait) (hk : s.bitK = true) (ht : s.bitT = true) :
      CoreCase s .busRecoverBegin
  | busRecoverEnd (hp : s.phase = phRecoverWait) (hk : s.bitK = true) : CoreCase s .busRecoverEnd
  | segReject (hp : s.phase = phSegCheck) (hv : s.bitV = false) : CoreCase s .segReject
  | segCommit (hp : s.phase = phSegCheck) (hv : s.bitV = true) : CoreCase s .segCommit
  | composite (hp : s.phase = phComposite) : CoreCase s .composite
  | colorize (hp : s.phase = phColorize) : CoreCase s .colorize
  | presentDone (hp : s.phase = phPresentWait) (hk : s.bitK = true) : CoreCase s .presentDone

theorem coreCase_of_selected {s : State} {i : Instr}
    (h : selectedBy s.phase s.bitM s.bitT s.bitV s.bitK = .ok i) : CoreCase s i := by
  have hle : s.phase.toNat ≤ 8 := by
    by_contra hn
    unfold selectedBy at h
    split at h <;> first | omega | cases h
  rcases phase_cases hle with hp | hp | hp | hp | hp | hp | hp | hp | hp <;>
    simp only [hp, selectedBy] at h
  · cases h; exact .pktRecv hp
  · cases hm : s.bitM <;> simp only [hm] at h <;> cases h
    · exact .pktMismatch hp hm
    · exact .pktAccept hp hm
  · cases hk : s.bitK <;> simp only [hk] at h
    · cases h
    · cases ht : s.bitT <;> simp only [ht] at h <;> cases h
      · exact .resyncResume hp hk ht
      · exact .busRecoverBegin hp hk ht
  · cases hk : s.bitK <;> simp only [hk] at h <;> cases h
    exact .busRecoverEnd hp hk
  · cases hv : s.bitV <;> simp only [hv] at h <;> cases h
    · exact .segReject hp hv
    · exact .segCommit hp hv
  · cases h; exact .composite hp
  · cases h
  · cases h; exact .colorize hp
  · cases hk : s.bitK <;> simp only [hk] at h <;> cases h
    exact .presentDone hp hk

/-- What a step can do to memory. -/
inductive MemCase (s t : State) : Prop where
  | same (h : t.mem = s.mem)
  | recv (hc : s.coreNext) (hp : s.phase = phAcq)
      (h : t.mem = s.mem.store (rxpktAddr 0) (s.rxBytes 164))
  | accept (hc : s.coreNext) (hp : s.phase = phCheck) (hm : s.bitM = true) (hj : s.j.toNat < 60)
      (h : t.mem = s.mem.store (stagingAddr s.j.toNat 0) (s.mem.load (rxpktAddr 0) 164))
  | commit (hc : s.coreNext) (hp : s.phase = phSegCheck) (hv : segidValid s.stagedSegid = true)
      (h : t.mem = s.mem.store (segstoreAddr (s.stagedSegid.toNat - 1) 0 0)
        (s.mem.load (stagingAddr 0 0) 9840))
  | composite (hc : s.coreNext) (hp : s.phase = phComposite)
      (h : t.mem = (compositePass { mem := s.mem, zeroCnt := s.zeroCnt, dropped := false }).mem)
  | colorize (hc : s.coreNext) (hp : s.phase = phColorize)
      (h : t.mem = s.mem.store dframeBase (bytesOfCells s.colored))
  | palette (q : HostReq) (hq : s.turns.head? = some (.host q)) (hw : reqWr q = 1)
      (hp : s.phase ≠ phColorize) (h1 : 0x01000 ≤ (reqAddr q).toNat)
      (h2 : (reqAddr q).toNat ≤ 0x012FC) (h4 : (reqAddr q).toNat % 4 = 0)
      (h : t.mem = s.mem.store (reqAddr q).toNat (bytesOfHostWord (reqData q)))

theorem State.command_mem (s : State) (code : Byte) : (s.command code).2.mem = s.mem := by
  rcases s.command_cases code with ⟨-, -, h⟩ | ⟨-, h⟩
  · simp [h]
  · simp [h]

/-- The transaction a request decodes to (R102). -/
theorem decodeHost_cases (q : HostReq) :
    (q &&& 0x1FFFFF000000FF = 0x10001800000001 ∧
      decodeHost q = .cmdRangeDone (q.extractLsb' 8 24)) ∨
    (reqWr q = 1 ∧ decodeHost q = .hostWrite (reqAddr q) (reqData q)) ∨
    (reqWr q ≠ 1 ∧ decodeHost q = .hostRead (reqAddr q) (reqData q)) := by
  unfold decodeHost
  by_cases h1 : q &&& 0x1FFFFF000000FF = 0x10001800000001
  · left; exact ⟨h1, if_pos h1⟩
  · rw [if_neg h1]
    by_cases h2 : reqWr q = 1
    · right; left; exact ⟨h2, if_pos h2⟩
    · right; right; exact ⟨h2, if_neg h2⟩

theorem step_mem_cases {s t : State} (h : step s = .next t) : MemCase s t := by
  cases step_cases h with
  | hold hc hsel ht => exact .same (by rw [ht]; rfl)
  | delay hh ht =>
    refine .same ?_
    rw [ht]; unfold State.delayTurn; split <;> rfl
  | sink hh ht =>
    refine .same ?_
    rw [ht]; unfold State.sinkTurn; split <;> rfl
  | host q hh ht =>
    rcases decodeHost_cases q with ⟨-, hd⟩ | ⟨hw, hd⟩ | ⟨-, hd⟩ <;> rw [hd] at ht
    · simp only [exec, execCmdRangeDone] at ht
      injection ht with ht
      exact .same (by rw [← ht, completeHost_eq]; exact State.command_mem _ _)
    · simp only [exec, execHostWrite] at ht
      injection ht with ht
      rw [completeHost_eq] at ht
      rcases s.popTurn.hostStore_cases (reqAddr q).toNat (reqData q) with
        hs | ⟨-, hs⟩ | ⟨-, hs⟩ | ⟨-, hs⟩ | ⟨-, hs⟩ | ⟨-, hs⟩ | ⟨h1, h2, h4, hp, hs⟩
      · exact .same (by rw [← ht, hs]; rfl)
      · exact .same (by rw [← ht, hs]; rfl)
      · exact .same (by rw [← ht, hs]; rfl)
      · exact .same (by rw [← ht, hs]; rfl)
      · exact .same (by rw [← ht, hs]; rfl)
      · exact .same (by rw [← ht, hs]; exact State.command_mem _ _)
      · exact .palette q hh hw hp h1 h2 h4 (by rw [← ht, hs]; rfl)
    · simp only [exec, execHostRead] at ht
      injection ht with ht
      rw [completeHost_eq] at ht
      rcases s.popTurn.hostLoad_state (reqAddr q).toNat with hs | hs <;>
        exact .same (by rw [← ht, hs]; rfl)
  | core i hc hsel ht =>
    cases coreCase_of_selected hsel with
    | pktRecv hp => cases ht; exact .recv hc hp rfl
    | pktAccept hp hm =>
      simp only [exec, execPktAccept] at ht
      split at ht
      · cases ht
      · rename_i hj
        have hj' : s.j.toNat < 60 := by simpa using hj
        split at ht <;> cases ht <;> exact .accept hc hp hm hj' rfl
    | pktMismatch => cases ht; exact .same rfl
    | resyncResume => cases ht; exact .same rfl
    | busRecoverBegin => cases ht; exact .same rfl
    | busRecoverEnd => cases ht; exact .same rfl
    | segReject => cases ht; exact .same rfl
    | segCommit hp hv =>
      simp only [exec, execSegCommit] at ht
      split at ht
      · rename_i hv'
        cases ht
        exact .commit hc hp hv' rfl
      · cases ht
    | composite hp =>
      simp only [exec, execComposite] at ht
      injection ht with ht
      refine .composite hc hp ?_
      rw [← ht]
      split <;> split <;> simp
    | colorize hp =>
      simp only [exec, execColorize] at ht
      split at ht
      · cases ht
      · cases ht; exact .colorize hc hp rfl
    | presentDone => cases ht; exact .same rfl

/-- The canonical form survives every step. -/
theorem step_keeps_memory_wf {s t : State} (hm : s.mem.wf) (h : step s = .next t) : t.mem.wf := by
  cases step_mem_cases h with
  | same h => rw [h]; exact hm
  | recv _ _ h => rw [h]; exact Memory.store_wf hm _ _
  | accept _ _ _ _ h => rw [h]; exact Memory.store_wf hm _ _
  | commit _ _ _ h => rw [h]; exact Memory.store_wf hm _ _
  | composite _ _ h => rw [h]; exact (compositePass_spec _ _ _ hm).wf
  | colorize _ _ h => rw [h]; exact Memory.store_wf hm _ _
  | palette _ _ _ _ _ _ _ h => rw [h]; exact Memory.store_wf hm _ _

end Sys2Proof.Machine
end

