-- ==== Sys2Proof/Tests/Slice0.lean ====
section
/-! SUPPORT. The model's own tests: words and expected results from the tables of spec/30_encoding.md and
spec/95_test_vectors.md, and for each statement with hypotheses a witness that meets them. -/

open Sys2Proof Sys2Proof.Machine

namespace Sys2Proof.Tests

/-- An operation or a step answers a next state that passes a check. -/
def nextIs (o : Host.Outcome State Fault Refusal) (p : State → Bool) : Bool :=
  match o with
  | .next t => p t
  | .fault _ => false
  | .refused _ => false

theorem exists_next {o : Host.Outcome State Fault Refusal} {p : State → Bool} (h : nextIs o p = true) :
    ∃ t, o = .next t ∧ p t = true := by
  cases o with
  | next t => exact ⟨t, rfl, h⟩
  | fault => cases h
  | refused => cases h

/-- The last event recorded is this transaction. -/
def answers (req : HostReq) (rdata : HostWord) (err : Bool) (t : State) : Bool :=
  t.history.getLast? == some (.host req { rdata := rdata, err := err })

/-! ### WellFormed (R102, R201) -/

theorem test_wf_refuses_range_done_as_write : Instr.wf (.hostWrite 0x00018 0xABCDEF01) = false := by
  decide
theorem test_wf_other_code : Instr.wf (.hostWrite 0x00018 0x00000000) = true := by decide
theorem test_wf_other_address : Instr.wf (.hostWrite 0x0001C 0x00000001) = true := by decide

/-! ### Decoding: words written out from R98, R99 and R102 -/

theorem test_decode_pkt_recv : decodeTableWord 16 0b0000000_0_0_0_0_1_0000 = some .pktRecv := by decide
theorem test_decode_pkt_accept :
    decodeTableWord 16 0b0000000_0_0_1_1_1_0001 = some .pktAccept := by decide
theorem test_decode_pkt_mismatch :
    decodeTableWord 16 0b0000000_1_0_1_1_0_0001 = some .pktMismatch := by decide
theorem test_decode_resync_resume :
    decodeTableWord 16 0b0000000_1_0_1_0_1_0010 = some .resyncResume := by decide
theorem test_decode_bus_recover_begin :
    decodeTableWord 16 0b0000000_1_0_0_1_1_0010 = some .busRecoverBegin := by decide
theorem test_decode_bus_recover_end :
    decodeTableWord 16 0b0000000_1_0_0_1_0_0011 = some .busRecoverEnd := by decide
theorem test_decode_seg_reject : decodeTableWord 16 0b0000000_0_0_0_1_1_0100 = some .segReject := by
  decide
theorem test_decode_seg_commit : decodeTableWord 16 0b0000000_0_0_1_0_0_0100 = some .segCommit := by
  decide
theorem test_decode_composite : decodeTableWord 16 0b0000000_0_0_1_0_1_0101 = some .composite := by
  decide
theorem test_decode_colorize : decodeTableWord 16 0b0000000_0_0_1_0_1_0111 = some .colorize := by decide
theorem test_decode_present_done :
    decodeTableWord 16 0b0000000_1_0_1_0_1_1000 = some .presentDone := by decide
theorem test_decode_host_read :
    decodeTableWord 56 0b0_00010000000000000100_10000000000000000000000000000001
      = some (.hostRead 0x10004 0x80000001) := by decide
theorem test_decode_host_write :
    decodeTableWord 56 0b1_00000000000000001000_00010010001101000000000001100100
      = some (.hostWrite 0x00008 0x12340064) := by decide
theorem test_decode_cmd_range_done :
    decodeTableWord 56 0b1_00000000000000011000_00000000000000000000000100000001
      = some (.cmdRangeDone 0x000001) := by decide
/-- V-E4, V-E9 and R100: the waits hold, a reserved PHASE is refused by name. -/
theorem test_decode_none :
    decode (.dispatch 0x0002) = .error .hold ∧ decode (.dispatch 0x0103) = .ok .busRecoverEnd ∧
    decode (.dispatch 0x0106) = .error .hold ∧ decode (.dispatch 0x0008) = .error .hold ∧
    decode (.dispatch 0x0109) = .error .reservedPhase ∧
    decode (.dispatch 0x000F) = .error .reservedPhase := by decide
theorem test_too_wide : decodeTableWord 56 (2 ^ 53) = none ∧ decodeTableWord 16 (2 ^ 16) = none := by
  decide

/-! ### A placed word runs as the very next step -/

theorem test_fetch_first_step_rows :
    nextIs (step (State.reset.withFetchWord 16 0x0001)) (fun t => t.phase == phResyncWait) = true ∧
    nextIs (step (State.reset.withFetchWord 16 0x0011)) (fun t => t.j == 1) = true ∧
    nextIs (step (State.reset.withFetchWord 16 0x0102)) (fun t => t.phase == phAcq) = true ∧
    nextIs (step (State.reset.withFetchWord 16 0x0122)) (fun t => t.phase == phRecoverWait) = true ∧
    nextIs (step (State.reset.withFetchWord 16 0x0044)) (fun t => t.lastSegid == 1) = true ∧
    nextIs (step (State.reset.withFetchWord 16 0x0108)) (fun t => t.phase == phAcq) = true := by decide
theorem test_fetch_host :
    nextIs (step (State.reset.withFetchWord 56 0x10000812340064)) (fun t => t.rangeMin == 100)
      = true := by decide

/-! ### Packet Synchronizer (spec/95 section 2.2) -/

/-- R120: a packet whose bytes are 1, 2, 3, 0, 0, ... is laid out; RXPKT[2] is the third. -/
theorem test_pkt_recv :
    nextIs (exec .pktRecv { State.reset with rxIn := [1, 2, 3] ++ List.replicate 161 0 })
      (fun t => t.mem == [(rxpktAddr 0, 1), (rxpktAddr 1, 2), (rxpktAddr 2, 3)] && t.rxIn == [] &&
        t.draws == 0 && t.history.length == 166 && t.phase == phCheck) = true := by decide +kernel
/-- V-S2: the 60th packet completes the attempt. -/
theorem test_pkt_accept_last :
    nextIs (exec .pktAccept { State.reset with j := 59, resyncCnt := 3, mem := [(rxpktAddr 1, 59)] })
      (fun t => t.mem == [(rxpktAddr 1, 59), (stagingAddr 59 1, 59)] && t.j == 0 &&
        t.resyncCnt == 0 && t.phase == phSegCheck) = true := by decide +kernel
/-- V-S11: under RECOVERY_ONLY an accepted packet leaves RESYNC_CNT. -/
theorem test_pkt_accept_recovery_only :
    nextIs (exec .pktAccept { State.reset with
        resyncCnt := 749, params := { clearPolicy := .recoveryOnly, resyncDelayUs := 1 } })
      (fun t => t.resyncCnt == 749 && t.j == 1 && t.phase == phAcq) = true := by decide
/-- V-S3. -/
theorem test_pkt_mismatch :
    nextIs (exec .pktMismatch { State.reset with
        j := 12, resyncCnt := 3, params := { clearPolicy := .onAccept, resyncDelayUs := 500 } })
      (fun t => t.j == 0 && t.resyncCnt == 4 && t.evt == 1 &&
        t.history == [.errEvent 1, .delayReq 500] && t.phase == phResyncWait) = true := by decide
/-- V-S7. -/
theorem test_resync_resume :
    nextIs (exec .resyncResume { State.reset with
        phase := phResyncWait, resyncCnt := 749, elapsedSig := true })
      (fun t => t.resyncCnt == 749 && t.phase == phAcq && !t.elapsedSig) = true := by decide
/-- V-S8, STATUS included. -/
theorem test_bus_recover_begin :
    nextIs (exec .busRecoverBegin { State.reset with
        phase := phResyncWait, resyncCnt := 750, wrongsegCnt := 9, zeroCnt := 40, elapsedSig := true })
      (fun t => t.wrongsegCnt == 0 && t.zeroCnt == 0 && t.resyncCnt == 750 &&
        t.history == [.tpDisable, .errEvent 2, .delayReq 750000] &&
        t.statusWord == 0x02000003) = true := by decide
/-- V-S9, STATUS included. -/
theorem test_bus_recover_end :
    nextIs (exec .busRecoverEnd { State.reset with
        phase := phRecoverWait, resyncCnt := 750, tpEn := false, evt := 2, elapsedSig := true })
      (fun t => t.resyncCnt == 0 && t.history == [.tpEnable] && t.statusWord == 0x02000020)
      = true := by decide

/-! ### Segment Assembler (section 2.3) -/

/-- V-A1. -/
theorem test_seg_reject :
    nextIs (exec .segReject { State.reset with phase := phSegCheck, wrongsegCnt := 2 })
      (fun t => t.wrongsegCnt == 3 && t.evt == 3 && t.lastSegid == 0 && t.mem == [] &&
        t.phase == phAcq) = true := by decide
/-- V-A4: identifier 1, the low nibble ignored. -/
theorem test_seg_commit_1 :
    nextIs (exec .segCommit { State.reset with
        phase := phSegCheck, wrongsegCnt := 2, mem := [(stagingAddr 20 0, 0x1F)] })
      (fun t => t.mem == [(segstoreAddr 0 20 0, 0x1F), (stagingAddr 20 0, 0x1F)] &&
        t.wrongsegCnt == 0 && t.lastSegid == 1 && t.phase == phAcq) = true := by decide +kernel
/-- V-A6, the commit: identifier 4 goes on to COMPOSITE. -/
theorem test_seg_commit_4 :
    nextIs (exec .segCommit { State.reset with
        phase := phSegCheck, mem := [(stagingAddr 20 0, 0x40)] })
      (fun t => t.mem.read (segstoreAddr 3 20 0) == 0x40 && t.lastSegid == 4 &&
        t.phase == phComposite) = true := by decide +kernel

/-! ### Payload decoder (section 2.4) -/

/-- V-D1 to V-D8. -/
theorem test_geometry :
    (rowOf 1 0, colOf 0 79) = (0, 79) ∧ (rowOf 1 59, colOf 59 79) = (29, 159) ∧
    (rowOf 2 20, colOf 20 5) = (40, 5) ∧ (rowOf 3 7, colOf 7 40) = (63, 120) ∧
    (rowOf 4 58, colOf 58 0) = (119, 0) ∧ (rowOf 4 59, colOf 59 79) = (119, 159) := by decide
/-- V-D9, V-D11, V-D14: big-endian samples, cells before the first zero word, one count for the packet. -/
theorem test_pass_packet :
    passPacket ⟨[(segstoreAddr 0 0 0, 0xFF), (segstoreAddr 0 0 4, 0x12), (segstoreAddr 0 0 5, 0x34),
        (segstoreAddr 0 0 6, 0x01), (segstoreAddr 0 0 10, 0x07)], 6, false⟩ 1 0 =
      ⟨[(segstoreAddr 0 0 0, 0xFF), (segstoreAddr 0 0 4, 0x12), (segstoreAddr 0 0 5, 0x34),
        (segstoreAddr 0 0 6, 0x01), (segstoreAddr 0 0 10, 0x07), (0x30000, 0x34), (0x30001, 0x12),
        (0x30003, 0x01)], 7, true⟩ := by decide +kernel
/-- V-D16 for all four buffers, and V-D19: sentinel first, then the degenerate span. -/
theorem test_composite_empty_degenerate :
    nextIs (exec .composite { State.reset with
        phase := phComposite, rangeCtrl := 0, rangeMin := 300, rangeMax := 100 })
      (fun t => t.zeroCnt == 240 && t.mem == [] && t.evt == 5 &&
        t.history == [.errEvent 4, .errEvent 5] && t.scaleSpan == 2000 && t.minL == 300 &&
        t.scaleHeld && t.phase == phColorize) = true := by decide +kernel

/-! ### Colormap Quantizer (section 2.5) -/

/-- V-Q6, V-Q7, V-Q10, V-Q14, V-Q15. -/
theorem test_norm :
    normOf 30000 2000 31500 = 191 ∧ normOf 30000 2000 32000 = 255 ∧ normOf 30000 2000 65535 = 4531 ∧
    normOf 100 100 200 = 255 ∧ normOf 100 100 101 = 3 := by decide +kernel
/-- V-P1, V-P4, V-P5, V-P6. -/
theorem test_pack565 :
    pack565 0xFF 0x80 0x01 = 0xFC00 ∧ pack565 0x07 0x03 0x07 = 0x0000 ∧
    pack565 0x08 0x04 0x08 = 0x0821 ∧ pack565 0x12 0x34 0x56 = 0x11AA := by decide
/-- V-Q25, V-Q26, V-Q27: the palette bytes, not the clamped entry. -/
theorem test_lookup :
    let m : Memory := [(paletteAddr 0, 9), (paletteAddr 1, 8), (paletteAddr 2, 7),
      (paletteAddr 765, 1), (paletteAddr 766, 2), (paletteAddr 767, 3)]
    [0, 1, 2].map (paletteByte m 255) = [1, 2, 3] ∧ [0, 1, 2].map (paletteByte m 256) = [3, 3, 3] ∧
    [0, 1, 2].map (paletteByte m (-1)) = [9, 9, 9] := by decide
/-- V-L1-6 with the identity palette, and V-Q5: 127 packs to 0x7BEF, 128 to 0x8410. -/
theorem test_color :
    ({ State.reset with minL := 100, scaleSpan := 100 }.color 150) = 0x7BEF ∧
    (State.reset.color 31000) = 0x8410 := by decide +kernel
/-- V-Q28: a zero cell is skipped; a non-zero one is coloured (V-Q7). -/
theorem test_colorize_first_cells :
    nextIs (exec .colorize { State.reset with
        phase := phColorize, mem := [(0x30002, 0x00), (0x30003, 0x7D), (0x40000, 0x34), (0x40001, 0x12)] })
      (fun t => t.mem.read 0x40000 == 0x34 && t.mem.read 0x40001 == 0x12 && t.mem.read 0x40002 == 0xFF &&
        t.phase == phPresentWait) = true := by decide +kernel
/-- R178. -/
theorem test_present_done :
    nextIs (exec .presentDone { State.reset with phase := phPresentWait, returnedSig := true })
      (fun t => t.phase == phAcq && !t.returnedSig && t.history == []) = true := by decide

/-! ### Host interface (section 2.6) -/

/-- V-H3, V-H6, V-H8, V-H9, V-H10, V-H11, V-H15. -/
theorem test_host_read :
    nextIs (exec (.hostRead 0x00010 0) State.reset) (answers 0x00001000000000 0x000007D0 false) = true ∧
    nextIs (exec (.hostRead 0x0002C 0) State.reset) (answers 0x00002C00000000 0 true) = true ∧
    nextIs (exec (.hostRead 0x00002 0) State.reset) (answers 0x00000200000000 0 true) = true ∧
    nextIs (exec (.hostRead 0x01000 0) State.reset) (answers 0x00100000000000 0x01000000 false) = true ∧
    nextIs (exec (.hostRead 0x012FC 0) State.reset) (answers 0x0012FC00000000 0xFFFFFFFE false) = true ∧
    nextIs (exec (.hostRead 0x01300 0) State.reset) (answers 0x00130000000000 0 true) = true ∧
    nextIs (exec (.hostRead 0x49600 0) State.reset) (answers 0x04960000000000 0 true) = true := by decide
/-- V-H12: a draw; the response is OK and nothing is known of its data. -/
theorem test_host_read_draw :
    nextIs (exec (.hostRead 0x08000 0) State.reset) (fun t => t.draws == 4 && t.mem == []) = true := by
  decide
/-- V-H16 to V-H24. -/
theorem test_host_write_registers :
    nextIs (exec (.hostWrite 0x00010 5) State.reset)
      (fun t => answers 0x10001000000005 0 true t && t.scaleSpan == 2000) = true ∧
    nextIs (exec (.hostWrite 0x00018 0) State.reset) (answers 0x10001800000000 0 true) = true ∧
    nextIs (exec (.hostWrite 0x00006 0) State.reset) (answers 0x10000600000000 0 true) = true ∧
    nextIs (exec (.hostWrite 0x00004 0xFFFFFFFF) State.reset)
      (fun t => answers 0x100004FFFFFFFF 0 false t && t.rangeCtrl == 0x3) = true ∧
    nextIs (exec (.hostWrite 0x00008 0x12340064) State.reset)
      (fun t => answers 0x10000812340064 0 false t && t.rangeMin == 100) = true ∧
    nextIs (exec (.hostWrite 0x30000 1) State.reset)
      (fun t => answers 0x13000000000001 0 true t && t.mem == []) = true := by decide
/-- V-H25 and V-H29. -/
theorem test_host_write_palette :
    nextIs (exec (.hostWrite 0x01000 0x11223344) State.reset)
      (fun t => t.mem == [(0x01000, 0x44), (0x01001, 0x33), (0x01002, 0x22), (0x01003, 0x11)] &&
        t.mem.hostWord 0x01000 == 0x11223344) = true ∧
    nextIs (exec (.hostWrite 0x01000 5) { State.reset with phase := phColorize })
      (fun t => answers 0x10100000000005 0 true t && t.mem == []) = true := by decide
/-- V-H28, and V-H18: the same word outside RANGE_WAIT. -/
theorem test_cmd_range_done :
    nextIs (exec (.cmdRangeDone 0x000001) { State.reset with
        phase := phRangeWait, rangeMin := 100, rangeMax := 200 })
      (fun t => answers 0x10001800000101 0 false t && t.scaleSpan == 100 && t.minL == 100 &&
        t.phase == phColorize) = true ∧
    nextIs (exec (.cmdRangeDone 0) State.reset)
      (fun t => answers 0x10001800000001 0 true t && t.phase == phAcq && t.minL == 30000)
      = true := by decide
/-- R225: the events of a degenerate RANGE_DONE, in order. -/
theorem test_cmd_range_done_degenerate :
    nextIs (exec (.cmdRangeDone 0) { State.reset with
        phase := phRangeWait, rangeMin := 200, rangeMax := 200 })
      (fun t => t.history == [.errEvent 5, .host 0x10001800000001 { rdata := 0, err := false }] &&
        t.evt == 5 && t.scaleHeld && t.scaleSpan == 2000 && t.minL == 200) = true := by decide

/-! ### A wait and the signals (R42, R80, R101) -/

theorem test_hold_then_resume :
    nextIs (step { State.reset with phase := phResyncWait, turns := [.core, .elapsed] })
      (fun t => t.phase == phResyncWait && t.turns == [.elapsed] &&
        nextIs (step t) (fun u => u.elapsedSig && u.history == [.delayElapsed] &&
          nextIs (step u) (fun v => v.phase == phAcq && !v.elapsedSig))) = true := by decide

/-! ### Witnesses: for each statement with hypotheses, a state and operands that meet them all. Where a
statement has several clauses, one witness for each, at the ends of its ranges. -/

/-- DecoderFollowsDispatchTable: a match with ignored bits set, and a word that matches no row. -/
theorem witness_DecoderFollowsDispatchTable :
    (∃ r ∈ dispatchTable, 0x0FF0 &&& r.mask = r.mtch ∧ r.mtch ≠ 0x0FF0) ∧
    (∀ r ∈ dispatchTable, 0x0006 &&& r.mask ≠ r.mtch) :=
  ⟨⟨⟨.pktRecv, 0x0000, 0x000F⟩, by decide, by decide, by decide⟩, by decide⟩

/-- HoldsAreExactlyTheWaits: the four waits, and both ends of the reserved codes. -/
theorem witness_HoldsAreExactlyTheWaits :
    decodeDispatch 0x0002 = .error .hold ∧ decodeDispatch 0x0003 = .error .hold ∧
    decodeDispatch 0x0008 = .error .hold ∧ decodeDispatch 0x0106 = .error .hold ∧
    decodeDispatch 0x0009 = .error .reservedPhase ∧
    decodeDispatch 0x010F = .error .reservedPhase := by decide

/-- DecodeOfEncode: the write nearest to CMD_RANGE_DONE's words. -/
theorem witness_DecodeOfEncode : Instr.wf (.hostWrite 0x00018 0xFFFFFF00) = true := by decide

/-- RequestSelectsTransaction, its three conditional clauses. -/
theorem witness_RequestSelectsTransaction :
    (0x0FFFFFFFFFFFFF#53).getLsbD 52 = false ∧
    ((0x100018FFFFFF01#53).getLsbD 52 = true ∧ (0x100018FFFFFF01#53).extractLsb' 32 20 = 0x00018#20 ∧
      (0x100018FFFFFF01#53).extractLsb' 0 8 = 0x01#8) ∧
    ((0x10001800000002#53).getLsbD 52 = true ∧
      ¬((0x10001800000002#53).extractLsb' 32 20 = 0x00018#20 ∧
        (0x10001800000002#53).extractLsb' 0 8 = 0x01#8)) := by decide

theorem witness_StepRunsDecodedOperation :
    State.reset.phase.toNat ≤ 8 ∧ State.reset.coreNext ∧
      decode (.dispatch State.reset.dispatchWord) = .ok .pktRecv :=
  ⟨by decide, Or.inl rfl, by decide⟩

theorem witness_StepRunsDecodedRequest :
    let s := { State.reset with turns := [.host 0x10000812340064, .core] };
    s.phase.toNat ≤ 8 ∧ s.turns = .host 0x10000812340064 :: [.core] ∧
      decode (.host 0x10000812340064) = .ok (.hostWrite 0x00008 0x12340064) := by decide

theorem witness_CoreHoldsWithoutRow :
    let s := { State.reset with phase := phRangeWait, turns := [.core] };
    s.coreNext ∧ decode (.dispatch s.dispatchWord) = .error .hold :=
  ⟨Or.inr rfl, by decide⟩

/-- CoreSelectsByCondition: a row that is matched, and the eleven conditions; the resync threshold from
both sides. -/
theorem witness_CoreSelectsByCondition :
    (∃ r ∈ dispatchTable, State.reset.dispatchWord &&& r.mask = r.mtch) ∧
    State.reset.coreNext ∧ State.reset.phase = phAcq ∧
    (let s := { State.reset with phase := phCheck, j := 59, mem := [(rxpktAddr 1, 59)] };
      s.coreNext ∧ s.phase = phCheck ∧ s.mem.read (rxpktAddr 1) = s.j.setWidth 8) ∧
    (let s := { State.reset with phase := phCheck, mem := [(rxpktAddr 1, 64)] };
      s.coreNext ∧ s.phase = phCheck ∧ s.mem.read (rxpktAddr 1) ≠ s.j.setWidth 8) ∧
    (let s := { State.reset with phase := phResyncWait, elapsedSig := true, resyncCnt := 749 };
      s.coreNext ∧ s.phase = phResyncWait ∧ s.bitK = true ∧ s.resyncCnt ≠ 750) ∧
    (let s := { State.reset with phase := phResyncWait, elapsedSig := true, resyncCnt := 750 };
      s.coreNext ∧ s.phase = phResyncWait ∧ s.bitK = true ∧ s.resyncCnt = 750) ∧
    (let s := { State.reset with phase := phRecoverWait, elapsedSig := true };
      s.coreNext ∧ s.phase = phRecoverWait ∧ s.bitK = true) ∧
    (let s := { State.reset with phase := phSegCheck, mem := [(stagingAddr 20 0, 0x5F)] };
      s.coreNext ∧ s.phase = phSegCheck ∧ s.bitV = false) ∧
    (let s := { State.reset with phase := phSegCheck, mem := [(stagingAddr 20 0, 0x40)] };
      s.coreNext ∧ s.phase = phSegCheck ∧ s.bitV = true) ∧
    (let s := { State.reset with phase := phComposite };
      s.coreNext ∧ s.phase = phComposite) ∧
    (let s := { State.reset with phase := phColorize };
      s.coreNext ∧ s.phase = phColorize) ∧
    (let s := { State.reset with phase := phPresentWait, returnedSig := true };
      s.coreNext ∧ s.phase = phPresentWait ∧ s.bitK = true) := by
  refine ⟨⟨⟨.pktRecv, 0x0000, 0x000F⟩, by decide, by decide⟩, Or.inl rfl, rfl,
    ⟨Or.inl rfl, rfl, by decide⟩, ⟨Or.inl rfl, rfl, by decide⟩,
    ⟨Or.inl rfl, rfl, by decide, by decide⟩, ⟨Or.inl rfl, rfl, by decide, by decide⟩,
    ⟨Or.inl rfl, rfl, by decide⟩, ⟨Or.inl rfl, rfl, by decide⟩, ⟨Or.inl rfl, rfl, by decide⟩,
    ⟨Or.inl rfl, rfl⟩, ⟨Or.inl rfl, rfl⟩, ⟨Or.inl rfl, rfl, by decide⟩⟩

theorem witness_ReservedPhaseFaults :
    9 ≤ ({ State.reset with phase := 0x9 } : State).phase.toNat ∧
    9 ≤ ({ State.reset with phase := 0xF } : State).phase.toNat ∧
    nextIs (step { State.reset with phase := phPresentWait }) (fun _ => true) = true := by decide

/-- AgentSignals, its four clauses with their alternatives. -/
theorem witness_AgentSignals :
    (let s := { State.reset with phase := phRecoverWait, turns := [.elapsed] };
      s.phase.toNat ≤ 8 ∧ s.turns = .elapsed :: [] ∧ s.phase = phRecoverWait ∧ s.elapsedSig = false) ∧
    (let s := { State.reset with phase := phSegCheck, turns := [.elapsed] };
      s.phase.toNat ≤ 8 ∧ s.turns = .elapsed :: [] ∧ s.phase ≠ phResyncWait ∧
        s.phase ≠ phRecoverWait) ∧
    (let s := { State.reset with phase := phResyncWait, elapsedSig := true, turns := [.elapsed] };
      s.phase.toNat ≤ 8 ∧ s.turns = .elapsed :: [] ∧ s.elapsedSig = true) ∧
    (let s := { State.reset with phase := phPresentWait, turns := [.returned] };
      s.phase.toNat ≤ 8 ∧ s.turns = .returned :: [] ∧ s.phase = phPresentWait ∧
        s.returnedSig = false) ∧
    (let s := { State.reset with phase := phColorize, turns := [.returned] };
      s.phase.toNat ≤ 8 ∧ s.turns = .returned :: [] ∧ s.phase ≠ phPresentWait) ∧
    (let s := { State.reset with phase := phPresentWait, returnedSig := true, turns := [.returned] };
      s.phase.toNat ≤ 8 ∧ s.turns = .returned :: [] ∧ s.returnedSig = true) := by decide

/-- PktRecvEffect, ReceivedBytesAreLaidOutOrFree and CompositeEffect ask for sorted memory. -/
theorem witness_memory_wf :
    State.reset.mem.wf ∧ Memory.wf [(0x01000, 5), (rxpktAddr 163, 1), (0x495FF, 255)] := by decide

theorem witness_PktAcceptEffect :
    (let s := { State.reset with j := 0 }; s.mem.wf ∧ s.j.toNat ≤ 59) ∧
    (let s := { State.reset with j := 59, mem := [(rxpktAddr 1, 59)] };
      s.mem.wf ∧ s.j.toNat ≤ 59) := by decide

/-- StagingChangesOnlyByAccept: the first byte of slot 0 and the sequence byte of slot 59. -/
theorem witness_StagingChangesOnlyByAccept :
    (let s := { State.reset with phase := phCheck, mem := [(rxpktAddr 0, 0x77)] };
      s.mem.wf ∧ ∃ t, step s = .next t ∧
        (t.mem.read (stagingAddr 0 0) != s.mem.read (stagingAddr 0 0)) = true) ∧
    (let s := { State.reset with phase := phCheck, j := 59, mem := [(rxpktAddr 1, 59)] };
      s.mem.wf ∧ ∃ t, step s = .next t ∧
        (t.mem.read (stagingAddr 59 1) != s.mem.read (stagingAddr 59 1)) = true) :=
  ⟨⟨by decide, exists_next (by decide)⟩, ⟨by decide, exists_next (by decide)⟩⟩

/-- ResyncCountChanges, its three ways. -/
theorem witness_ResyncCountChanges :
    (∃ t, step { State.reset with phase := phCheck, mem := [(rxpktAddr 1, 5)] } = .next t ∧
      (t.resyncCnt != 0) = true) ∧
    (∃ t, step { State.reset with phase := phCheck, resyncCnt := 749 } = .next t ∧
      (t.resyncCnt != 749) = true) ∧
    (∃ t, step { State.reset with phase := phRecoverWait, resyncCnt := 750, elapsedSig := true }
      = .next t ∧ (t.resyncCnt != 750) = true) :=
  ⟨exists_next (by decide), exists_next (by decide), exists_next (by decide)⟩

/-- DiagnosticCountersChange: the three ways of WRONGSEG_CNT, the two of ZERO_CNT. -/
theorem witness_DiagnosticCountersChange :
    (∃ t, step { State.reset with phase := phSegCheck } = .next t ∧ (t.wrongsegCnt != 0) = true) ∧
    (let s := { State.reset with phase := phSegCheck, wrongsegCnt := 2, mem := [(0x20CD0, 0x10)] };
      ∃ t, step s = .next t ∧ (t.wrongsegCnt != 2) = true) ∧
    (let s := { State.reset with phase := phResyncWait, resyncCnt := 750, wrongsegCnt := 9, zeroCnt := 40 };
      ∃ t, step { s with elapsedSig := true } = .next t ∧
        (t.wrongsegCnt != 9 && t.zeroCnt != 40) = true) ∧
    (∃ t, step { State.reset with phase := phComposite } = .next t ∧ (t.zeroCnt != 0) = true) :=
  ⟨exists_next (by decide), exists_next (by decide), exists_next (by decide),
    exists_next (by decide +kernel)⟩

theorem witness_SegCommitEffect :
    (let s := { State.reset with mem := [(stagingAddr 20 0, 0x1F)] };
      s.mem.wf ∧ ((s.mem.read (stagingAddr 20 0)).extractLsb' 4 4).toNat = 1) ∧
    (let s := { State.reset with mem := [(stagingAddr 20 0, 0x40)] };
      s.mem.wf ∧ ((s.mem.read (stagingAddr 20 0)).extractLsb' 4 4).toNat = 4) := by decide

/-- OperationsStopOutsideTheirRanges: both ends of each range. -/
theorem witness_OperationsStopOutsideTheirRanges :
    60 ≤ ({ State.reset with j := 60 } : State).j.toNat ∧
    60 ≤ ({ State.reset with j := 63 } : State).j.toNat ∧
    (∀ b ∈ [0x0F#8, 0x50#8, 0xF0#8],
      let s := { State.reset with mem := [(stagingAddr 20 0, b)] };
      ¬(1 ≤ ((s.mem.read (stagingAddr 20 0)).extractLsb' 4 4).toNat ∧
        ((s.mem.read (stagingAddr 20 0)).extractLsb' 4 4).toNat ≤ 4)) ∧
    ({ State.reset with scaleSpan := 0 } : State).scaleSpan = 0 := by decide

/-- SegstoreChangesOnlyByCommit: the first and the last buffer. -/
theorem witness_SegstoreChangesOnlyByCommit :
    (let s := { State.reset with phase := phSegCheck, mem := [(stagingAddr 20 0, 0x10)] };
      s.mem.wf ∧ ∃ t, step s = .next t ∧
        (t.mem.read (segstoreAddr 0 20 0) != s.mem.read (segstoreAddr 0 20 0)) = true) ∧
    (let s := { State.reset with phase := phSegCheck, mem := [(stagingAddr 20 0, 0x40)] };
      s.mem.wf ∧ ∃ t, step s = .next t ∧
        (t.mem.read (segstoreAddr 3 20 0) != s.mem.read (segstoreAddr 3 20 0)) = true) :=
  ⟨⟨by decide, exists_next (by decide +kernel)⟩, ⟨by decide, exists_next (by decide +kernel)⟩⟩

/-- GeometryIsOneToOne: both ends of the pass; the second clause with one cell. -/
theorem witness_GeometryIsOneToOne :
    (1 ≤ 1 ∧ 1 ≤ 4 ∧ 0 < 60 ∧ 0 < 80) ∧ (1 ≤ 4 ∧ 4 ≤ 4 ∧ 59 < 60 ∧ 79 < 80) ∧
    rowOf 4 59 = rowOf 4 59 ∧ colOf 59 79 = colOf 59 79 := by decide

/-- CompositeEffect, its clauses about cells: a word with none but non-zero words before it, at both ends of the grid, and one
with a zero before it. -/
theorem witness_CompositeEffect_cells :
    (let m : Memory := [(segstoreAddr 0 0 5, 0x96)];
      m.wf ∧ (∀ l ≤ 0, storedSample m 1 0 l ≠ 0) ∧ (∃ l ≤ 79, storedSample m 1 0 l = 0)) ∧
    (let m : Memory := (List.range 80).map fun l => (segstoreAddr 3 59 (5 + 2 * l), 0x96);
      m.wf ∧ (∀ l ≤ 79, storedSample m 4 59 l ≠ 0)) :=
  ⟨⟨by decide, by decide, ⟨79, by decide, by decide⟩⟩, ⟨by decide +kernel, by decide +kernel⟩⟩

/-- CompositeEffect, its three clauses about the way on; AUTO_MIN or AUTO_MAX alone; the span's boundary. -/
theorem witness_CompositeEffect :
    (∀ v ∈ [1#2, 2#2, 3#2], let s := { State.reset with rangeCtrl := v };
      s.mem.wf ∧ (s.rangeCtrl.getLsbD 0 = true ∨ s.rangeCtrl.getLsbD 1 = true)) ∧
    (let s := { State.reset with rangeCtrl := 0, rangeMin := 0, rangeMax := 1 };
      s.mem.wf ∧ s.rangeCtrl = 0 ∧ s.rangeMin.toNat < s.rangeMax.toNat) ∧
    (let s := { State.reset with rangeCtrl := 0, rangeMin := 1, rangeMax := 1 };
      s.mem.wf ∧ s.rangeCtrl = 0 ∧ s.rangeMax.toNat ≤ s.rangeMin.toNat) := by decide

theorem witness_ScaleLatchEffect :
    (let s := { State.reset with rangeMin := 0, rangeMax := 65535 };
      s.rangeMin.toNat < s.rangeMax.toNat) ∧
    (let s := { State.reset with rangeMin := 200, rangeMax := 200 };
      s.rangeMax.toNat ≤ s.rangeMin.toNat) := by decide

/-- ExactArithmeticHelpers: a negative q at the lower end of its binade; both signs and a tie of p. -/
theorem witness_ExactArithmeticHelpers :
    ((-1 : Rat) ≠ 0 ∧ (2 : Rat) ^ (0 : Int) ≤ |(-1 : Rat)| ∧
      |(-1 : Rat)| < (2 : Rat) ^ ((0 : Int) + 1)) ∧
    (0 : Rat) ≤ 1 / 2 ∧ (-1 / 2 : Rat) < 0 ∧ |(1 : Rat) - 1 / 2| = 1 / 2 := by norm_num

theorem witness_NormOfSampleInRangeIsByte :
    (2000#16 : BitVec 16) ≠ 0 ∧ (30000#16).toNat ≤ (32000#16).toNat ∧
      (32000#16).toNat ≤ (30000#16).toNat + (2000#16).toNat := by decide

theorem witness_PaletteLookupClamps :
    ((0 : Int) ≤ 0 ∧ (0 : Int) ≤ 255) ∧ ((0 : Int) ≤ 255 ∧ (255 : Int) ≤ 255) ∧
      (256 : Int) ≤ 256 ∧ (-1 : Int) ≤ -1 := by decide

/-- IdentityPaletteColour: the palette that reset leaves. -/
theorem witness_IdentityPaletteColour :
    ∀ v < 256, ∀ c < 3, Memory.read [] (paletteAddr (3 * v + c)) = BitVec.ofNat 8 v := by
  intro v hv c hc
  have h : (3 * v + c) / 3 = v := by omega
  rw [Memory.read_nil, Memory.unlisted, paletteAddr, if_pos (by omega), Nat.add_sub_cancel_left, h]

theorem witness_ColorizeEffect : State.reset.mem.wf ∧ State.reset.scaleSpan ≠ 0 := by decide

/-- HostReadEffect, its windows: the first and the last word of every window, each in and outside its phase. -/
theorem witness_HostReadEffect_windows :
    (∀ a ∈ [(0x01000, 0x01000, 768), (0x01000, 0x012FC, 768), (0x08000, 0x08000, 164),
        (0x08000, 0x080A0, 164), (0x10000, 0x10000, 39360), (0x10000, 0x199BC, 39360),
        (0x20000, 0x20000, 9840), (0x20000, 0x2266C, 9840), (0x30000, 0x30000, 38400),
        (0x30000, 0x395FC, 38400), (0x40000, 0x40000, 38400), (0x40000, 0x495FC, 38400)],
      a.2.1 % 4 = 0 ∧ a.1 ≤ a.2.1 ∧ a.2.1 < a.1 + a.2.2 ∧ a.2.1 < 2 ^ 20) ∧
    (some phAcq = some State.reset.phase ∧ none ≠ some State.reset.phase ∧
      some phCheck ≠ some State.reset.phase) := by decide

/-- DrawnReadsAreFreeBytes: the last word of RXPKT in ACQ, of DFRAME in COLORIZE. -/
theorem witness_DrawnReadsAreFreeBytes :
    (0x080A0#20).toNat % 4 = 0 ∧ 0x08000 ≤ (0x080A0#20).toNat ∧ (0x080A0#20).toNat < 0x08000 + 164 ∧
    State.reset.phase = phAcq ∧
    (0x495FC#20).toNat % 4 = 0 ∧ 0x40000 ≤ (0x495FC#20).toNat ∧ (0x495FC#20).toNat < 0x40000 + 38400 ∧
    ({ State.reset with phase := phColorize } : State).phase = phColorize := by decide

/-- HostReadEffect, its errors: the ends of every unmapped range, and a misaligned address. -/
theorem witness_HostReadEffect_errors :
    (∀ a ∈ [0x0002C, 0x00FFC, 0x01300, 0x07FFC, 0x080A4, 0x0FFFC, 0x199C0, 0x1FFFC, 0x22670, 0x2FFFC,
        0x39600, 0x3FFFC, 0x49600, 0xFFFFC],
      a < 2 ^ 20 ∧ ((0x02C ≤ a ∧ a < 0x01000) ∨ (0x01300 ≤ a ∧ a < 0x08000) ∨
        (0x080A4 ≤ a ∧ a < 0x10000) ∨ (0x199C0 ≤ a ∧ a < 0x20000) ∨ (0x22670 ≤ a ∧ a < 0x30000) ∨
        (0x39600 ≤ a ∧ a < 0x40000) ∨ 0x49600 ≤ a)) ∧
    (0x00001#20).toNat % 4 ≠ 0 := by decide

/-- HostWriteEffect, its errors and its command clause. -/
theorem witness_HostWriteEffect_errors :
    (0x00003#20).toNat % 4 ≠ 0 ∧ (0x00028#20).toNat ∈ [0x000, 0x010, 0x014, 0x020, 0x024, 0x028] ∧
    (0x02C ≤ (0x0002C#20).toNat ∧ (0x00FFC#20).toNat < 0x01000) ∧ 0x01300 ≤ (0x01300#20).toNat ∧
    (let s := { State.reset with phase := phColorize };
      0x01000 ≤ (0x012FC#20).toNat ∧ (0x012FC#20).toNat < 0x01300 ∧ s.phase = phColorize) ∧
    (0xFFFFFF00#32).extractLsb' 0 8 ≠ 0x01#8 ∧ (0xFFFFFF01#32).extractLsb' 0 8 = 0x01#8 := by decide

/-- FailedTransactionsChangeNothing: a read, a write and a RANGE_DONE outside RANGE_WAIT. -/
theorem witness_FailedTransactionsChangeNothing :
    (∃ t, exec (decodeHost 0x00002C00000000) State.reset = .next t ∧
      answers 0x00002C00000000 0 true t = true) ∧
    (∃ t, exec (decodeHost 0x13000000000001) State.reset = .next t ∧
      answers 0x13000000000001 0 true t = true) ∧
    (∃ t, exec (decodeHost 0x10001800000001) State.reset = .next t ∧
      answers 0x10001800000001 0 true t = true) :=
  ⟨exists_next (by decide), exists_next (by decide), exists_next (by decide)⟩

theorem witness_HostWriteEffect_palette :
    State.reset.mem.wf ∧ State.reset.phase ≠ phColorize ∧
    ((0x01000#20).toNat % 4 = 0 ∧ 0x01000 ≤ (0x01000#20).toNat ∧ (0x01000#20).toNat < 0x01300) ∧
    ((0x012FC#20).toNat % 4 = 0 ∧ 0x01000 ≤ (0x012FC#20).toNat ∧
      (0x012FC#20).toNat < 0x01300) := by decide

/-- CmdRangeDoneEffect, its three clauses. -/
theorem witness_CmdRangeDoneEffect :
    (0x10001800000101#53) = hostReq 1 0x00018 ((0x000001#24) ++ 0x01#8) ∧
    (let s := { State.reset with phase := phRangeWait, rangeMin := 65534, rangeMax := 65535 };
      s.phase = phRangeWait ∧ s.rangeMin.toNat < s.rangeMax.toNat) ∧
    (let s := { State.reset with phase := phRangeWait, rangeMin := 0, rangeMax := 0 };
      s.phase = phRangeWait ∧ s.rangeMax.toNat ≤ s.rangeMin.toNat) ∧
    State.reset.phase ≠ phRangeWait := by decide

/-- StepKeepsLegal and LegalStateNeverStops: the state after a first packet has come in. -/
theorem witness_Legal :
    Legal { State.reset with phase := phCheck } ∧
    ∃ t, step { State.reset with phase := phCheck } = .next t ∧ (t.j == 1) = true := by
  refine ⟨?_, exists_next (by decide)⟩
  exact
    { memoryWf := by decide
      memoryMapped := by intro c hc; cases hc
      phaseLegal := by decide
      jRange := by decide
      jZero := fun _ _ => rfl
      resyncBound := by decide
      resyncFull := by decide
      resyncRecover := by decide
      spanPositive := by decide
      tpEnabled := by decide
      segidRange := by decide
      evtRange := by decide
      elapsedWhere := by decide
      returnedWhere := by decide
      staged := by
        intro p _ h
        rcases h with h | h
        · exact absurd h (Nat.not_lt_zero p)
        · exact absurd h (by decide)
      stored := by
        intro k hk
        refine Or.inl fun i hi => ?_
        show Memory.read [] _ = 0
        rw [Memory.read_nil, Memory.unlisted, if_neg (by unfold segstoreAddr; omega)]
      delayPositive := Nat.succ_pos _ }

theorem witness_HistoryGrowsAndIsNeverRead :
    ∃ t, step { State.reset with phase := phCheck, mem := [(rxpktAddr 1, 5)] } = .next t ∧
      (t.history.length == 2) = true := exists_next (by decide)

/-- PaletteChangesOnlyByHostWrite: the first and the last byte. -/
theorem witness_PaletteChangesOnlyByHostWrite :
    (let s := { State.reset with turns := [.host 0x101000000000FF] };
      s.mem.wf ∧ ∃ t, step s = .next t ∧
        (t.mem.read (paletteAddr 0) != s.mem.read (paletteAddr 0)) = true) ∧
    (let s := { State.reset with turns := [.host 0x1012FC00000000] };
      s.mem.wf ∧ ∃ t, step s = .next t ∧
        (t.mem.read (paletteAddr 767) != s.mem.read (paletteAddr 767)) = true) :=
  ⟨⟨by decide, exists_next (by decide)⟩, ⟨by decide, exists_next (by decide)⟩⟩

/-- ThermalCellsChangeOnlyToSamples: the first cell. -/
theorem witness_ThermalCellsChangeOnlyToSamples :
    let s := { State.reset with phase := phComposite, mem := [(segstoreAddr 0 0 5, 0x96)] };
    s.mem.wf ∧ ∃ t, step s = .next t ∧
      (t.mem.cell (cellAddr tframeBase 0 0) != s.mem.cell (cellAddr tframeBase 0 0)) = true :=
  ⟨by decide, exists_next (by decide +kernel)⟩

/-- DisplayCellsChangeOnlyByColorize: the first cell, raw sample 32000. -/
theorem witness_DisplayCellsChangeOnlyByColorize :
    let s := { State.reset with phase := phColorize, mem := [(0x30001, 0x7D)] };
    s.mem.wf ∧ ∃ t, step s = .next t ∧
      (t.mem.cell (cellAddr dframeBase 0 0) != s.mem.cell (cellAddr dframeBase 0 0)) = true :=
  ⟨by decide, exists_next (by decide +kernel)⟩

theorem witness_RangeWaitIsLeftOnlyByRangeDone :
    let s := { State.reset with phase := phRangeWait, turns := [.host 0x10001800000001] };
    s.phase = phRangeWait ∧ ∃ t, step s = .next t ∧ (t.phase != phRangeWait) = true :=
  ⟨rfl, exists_next (by decide)⟩

/-- TransfersOnlyInAcq: a packet of zero bytes. -/
theorem witness_TransfersOnlyInAcq :
    ∃ t, step { State.reset with rxIn := List.replicate 164 0 } = .next t ∧
      (t.history.contains (Event.xfer 0x00 0x00)) = true := exists_next (by decide +kernel)

/-- HostRegistersChangeOnlyByHostWrite, each of its four registers. -/
theorem witness_HostRegistersChangeOnlyByHostWrite :
    (∃ t, step { State.reset with turns := [.host 0x10000800000064] } = .next t ∧
      (t.rangeMin != State.reset.rangeMin) = true) ∧
    (∃ t, step { State.reset with turns := [.host 0x10000C00000064] } = .next t ∧
      (t.rangeMax != State.reset.rangeMax) = true) ∧
    (∃ t, step { State.reset with turns := [.host 0x10000400000000] } = .next t ∧
      (t.rangeCtrl != State.reset.rangeCtrl) = true) ∧
    (∃ t, step { State.reset with turns := [.host 0x10001C00050003] } = .next t ∧
      (t.presOrigin != State.reset.presOrigin) = true) :=
  ⟨exists_next (by decide), exists_next (by decide), exists_next (by decide), exists_next (by decide)⟩

end Sys2Proof.Tests
end

section
/-! The STATUS word of R38, read part by part. -/

namespace Sys2Proof.Machine

theorem getLsbD_of_extractLsb'_eq_ofBool {w i : Nat} {x : BitVec w} {b : Bool}
    (h : x.extractLsb' i 1 = BitVec.ofBool b) : x.getLsbD i = b := by
  rw [BitVec.getLsbD_eq_extractLsb', h]
  cases b <;> rfl

/-- RANGE_REQ as a condition on PHASE (R38). -/
theorem State.rangeReq_iff (s : State) : s.rangeReq = true ↔ s.phase = phRangeWait := beq_iff_eq

/-- The table of R38 row by row. STATUS is a concatenation: a row is reached by passing over the rows
below it (`extractLsb'_append_eq_of_le`) and cutting off those above it
(`extractLsb'_append_eq_of_add_le`). -/
theorem State.statusWord_rows (s : State) :
    s.statusWord.extractLsb' 0 4 = s.phase ∧
    s.statusWord.extractLsb' 4 1 = BitVec.ofBool s.rangeReq ∧
    s.statusWord.extractLsb' 5 1 = BitVec.ofBool s.tpEn ∧
    s.statusWord.extractLsb' 6 1 = BitVec.ofBool s.scaleHeld ∧
    s.statusWord.extractLsb' 7 1 = 0#1 ∧
    s.statusWord.extractLsb' 8 3 = s.lastSegid ∧
    s.statusWord.extractLsb' 11 5 = 0#5 ∧
    s.statusWord.extractLsb' 16 6 = s.j ∧
    s.statusWord.extractLsb' 22 2 = 0#2 ∧
    s.statusWord.extractLsb' 24 4 = s.evt ∧
    s.statusWord.extractLsb' 28 4 = 0#4 := by
  refine ⟨?phase, ?rangeReq, ?tpEn, ?scaleHeld, ?bit7, ?lastSegid, ?bits11, ?j, ?bits22, ?evt,
    ?bits28⟩ <;>
    simp (disch := decide) only [State.statusWord, BitVec.extractLsb'_append_eq_of_le,
      BitVec.extractLsb'_append_eq_of_add_le, Nat.reduceSub, BitVec.extractLsb'_eq_self]

/-- At reset PHASE is ACQ, TP_EN is 1 and every other field is 0 (R38). -/
theorem State.statusWord_reset : State.reset.statusWord = 0x00000020 := by decide

/-- Settles O8: the rows of R38's table, the one-bit rows as bits, and the word at reset. -/
theorem statusFields : Obligations.StatusFields := by
  refine ⟨fun s => ?_, State.statusWord_reset⟩
  obtain ⟨phase, rangeReq, tpEn, scaleHeld, bit7, lastSegid, bits11, j, bits22, evt, bits28⟩ :=
    s.statusWord_rows
  have rangeReq_bit : s.statusWord.getLsbD 4 = true ↔ s.phase = phRangeWait := by
    rw [getLsbD_of_extractLsb'_eq_ofBool rangeReq, s.rangeReq_iff]
  exact ⟨phase, rangeReq_bit, getLsbD_of_extractLsb'_eq_ofBool tpEn,
    getLsbD_of_extractLsb'_eq_ofBool scaleHeld, getLsbD_of_extractLsb'_eq_ofBool (b := false) bit7,
    lastSegid, bits11, j, bits22, evt, bits28⟩

end Sys2Proof.Machine
end

section
/-! The event history (R83, R84): every operation commutes with putting more past before the history. -/

namespace Sys2Proof.Machine

/-- `s` with more events before its own history. -/
@[simps] def State.withPast (s : State) (past : List Event) : State :=
  { s with history := past ++ s.history }

/-- `State.withPast` on the next state of an outcome; a stop carries no history. -/
def outcomeWithPast (past : List Event) :
    Host.Outcome State Fault Refusal → Host.Outcome State Fault Refusal
  | .next t => .next (t.withPast past)
  | .fault r => .fault r
  | .refused r => .refused r

@[simp] theorem outcomeWithPast_next (past : List Event) (t : State) :
    outcomeWithPast past (.next t) = .next (t.withPast past) := rfl

@[simp] theorem outcomeWithPast_fault (past : List Event) (r : Fault) :
    outcomeWithPast past (.fault r) = .fault r := rfl

/-- A state with another history is the state with the empty history and that past. -/
theorem State.setHistory_eq_withPast (s : State) (h : List Event) :
    { s with history := h } = State.withPast { s with history := [] } h := by
  simp [State.withPast]

section
variable (s : State) (past : List Event)

/-! ### The shared updates -/

@[simp] theorem State.emit_withPast (es : List Event) :
    (s.withPast past).emit es = (s.emit es).withPast past := by
  simp [State.emit, State.withPast]

@[simp] theorem State.goto_withPast (p : BitVec 4) :
    (s.withPast past).goto p = (s.goto p).withPast past := rfl

@[simp] theorem State.recordEvent_withPast (code : BitVec 4) :
    (s.withPast past).recordEvent code = (s.recordEvent code).withPast past := by
  simp [State.recordEvent, State.withPast]

@[simp] theorem State.delayUs_withPast (n : Nat) :
    (s.withPast past).delayUs n = (s.delayUs n).withPast past :=
  s.emit_withPast past _

@[simp] theorem State.rxTaken_withPast (n : Nat) :
    (s.withPast past).rxTaken n = (s.rxTaken n).withPast past := rfl

@[simp] theorem State.popTurn_withPast :
    (s.withPast past).popTurn = s.popTurn.withPast past := rfl

@[simp] theorem State.scaleLatch_withPast :
    (s.withPast past).scaleLatch = s.scaleLatch.withPast past := by
  simp only [State.scaleLatch, State.withPast_rangeMin, State.withPast_rangeMax,
    State.recordEvent_withPast]
  split <;> rfl

/-! ### The views: none reads the history -/

@[simp] theorem State.dispatchWord_withPast :
    (s.withPast past).dispatchWord = s.dispatchWord := rfl

@[simp] theorem State.stagedSegid_withPast :
    (s.withPast past).stagedSegid = s.stagedSegid := rfl

@[simp] theorem State.autoRange_withPast : (s.withPast past).autoRange = s.autoRange := rfl

@[simp] theorem State.register_withPast (off : Nat) :
    (s.withPast past).register off = s.register off := rfl

@[simp] theorem State.drawnWord_withPast : (s.withPast past).drawnWord = s.drawnWord := rfl

@[simp] theorem State.rxBytes_withPast (n : Nat) :
    (s.withPast past).rxBytes n = s.rxBytes n := rfl

@[simp] theorem State.colored_withPast : (s.withPast past).colored = s.colored := rfl

@[simp] theorem State.descriptor_withPast (px : List Cell16) :
    (s.withPast past).descriptor px = s.descriptor px := rfl

@[simp] theorem State.delayPending_withPast :
    (s.withPast past).delayPending = s.delayPending := rfl

@[simp] theorem State.presentPending_withPast :
    (s.withPast past).presentPending = s.presentPending := rfl

/-! ### The CORE's operations -/

theorem execPktRecv_withPast :
    execPktRecv (s.withPast past) = outcomeWithPast past (execPktRecv s) := by
  simp only [execPktRecv, State.rxTaken_withPast, State.rxBytes_withPast, State.emit_withPast]
  rfl

theorem execPktAccept_withPast :
    execPktAccept (s.withPast past) = outcomeWithPast past (execPktAccept s) := by
  by_cases hfull : 60 ≤ s.j.toNat
  · simp [execPktAccept, hfull]
  · by_cases hlast : s.j.toNat = 59
    · simp [execPktAccept, hlast, State.withPast]
    · simp [execPktAccept, hfull, hlast, State.withPast]

theorem execPktMismatch_withPast :
    execPktMismatch (s.withPast past) = outcomeWithPast past (execPktMismatch s) := by
  simp [execPktMismatch, State.recordEvent, State.delayUs, State.emit, State.goto, State.withPast]

theorem execResyncResume_withPast :
    execResyncResume (s.withPast past) = outcomeWithPast past (execResyncResume s) := rfl

theorem execBusRecoverBegin_withPast :
    execBusRecoverBegin (s.withPast past) = outcomeWithPast past (execBusRecoverBegin s) := by
  simp [execBusRecoverBegin, State.recordEvent, State.delayUs, State.emit, State.goto,
    State.withPast]

theorem execBusRecoverEnd_withPast :
    execBusRecoverEnd (s.withPast past) = outcomeWithPast past (execBusRecoverEnd s) := by
  simp [execBusRecoverEnd, State.withPast]

theorem execSegReject_withPast :
    execSegReject (s.withPast past) = outcomeWithPast past (execSegReject s) := by
  simp [execSegReject, State.recordEvent, State.goto, State.withPast]

theorem execSegCommit_withPast :
    execSegCommit (s.withPast past) = outcomeWithPast past (execSegCommit s) := by
  by_cases hvalid : segidValid s.stagedSegid = true
  · have hvalid' : segidValid (s.withPast past).stagedSegid = true := hvalid
    simp only [execSegCommit, if_pos hvalid, if_pos hvalid']
    rfl
  · simp [execSegCommit, hvalid]

theorem execPresentDone_withPast :
    execPresentDone (s.withPast past) = outcomeWithPast past (execPresentDone s) := rfl

theorem execColorize_withPast :
    execColorize (s.withPast past) = outcomeWithPast past (execColorize s) := by
  by_cases hspan : s.scaleSpan = 0
  · simp [execColorize, hspan]
  · simp only [execColorize, State.withPast_scaleSpan, if_neg hspan, State.colored_withPast,
      State.descriptor_withPast, State.emit_withPast, outcomeWithPast_next]
    rfl

theorem execComposite_withPast :
    execComposite (s.withPast past) = outcomeWithPast past (execComposite s) := by
  simp only [execComposite, State.withPast_mem, State.withPast_zeroCnt, State.autoRange_withPast]
  generalize compositePass _ = d
  have hpass : { s.withPast past with mem := d.mem, zeroCnt := d.zeroCnt } =
      State.withPast { s with mem := d.mem, zeroCnt := d.zeroCnt } past := rfl
  rw [hpass]
  cases d.dropped <;> cases s.autoRange <;> simp

/-! ### The host transactions -/

theorem completeHost_withPast (req : HostReq) (r : Resp × State) :
    completeHost req (r.1, r.2.withPast past) = (completeHost req r).withPast past :=
  State.emit_withPast _ _ _

theorem State.hostLoad_withPast (a : Nat) :
    (s.withPast past).hostLoad a = ((s.hostLoad a).1, (s.hostLoad a).2.withPast past) := by
  unfold State.hostLoad
  simp only [State.register_withPast, State.drawnWord_withPast, State.withPast_phase,
    State.withPast_mem]
  split
  · rfl
  · split
    · split <;> rfl
    · split
      · rfl
      · split <;> rfl

theorem State.command_withPast (code : Byte) :
    (s.withPast past).command code =
      ((s.command code).1, (s.command code).2.withPast past) := by
  by_cases hdone : code = 0x01 ∧ s.phase = phRangeWait
  · simp [State.command, hdone]
  · simp only [State.command, State.withPast_phase, if_neg hdone]

theorem State.hostStore_withPast (a : Nat) (v : HostWord) :
    (s.withPast past).hostStore a v =
      ((s.hostStore a v).1, (s.hostStore a v).2.withPast past) := by
  simp only [State.hostStore, State.command_withPast, State.withPast_phase, State.withPast_mem]
  repeat' split
  all_goals rfl

theorem execHostRead_withPast (addr : HostAddr) (wdata : HostWord) :
    execHostRead addr wdata (s.withPast past) =
      outcomeWithPast past (execHostRead addr wdata s) := by
  simp only [execHostRead, State.hostLoad_withPast, completeHost_withPast, outcomeWithPast_next]

theorem execHostWrite_withPast (addr : HostAddr) (wdata : HostWord) :
    execHostWrite addr wdata (s.withPast past) =
      outcomeWithPast past (execHostWrite addr wdata s) := by
  simp only [execHostWrite, State.hostStore_withPast, completeHost_withPast, outcomeWithPast_next]

theorem execCmdRangeDone_withPast (wdataHi : BitVec 24) :
    execCmdRangeDone wdataHi (s.withPast past) =
      outcomeWithPast past (execCmdRangeDone wdataHi s) := by
  simp only [execCmdRangeDone, State.command_withPast, completeHost_withPast,
    outcomeWithPast_next]

/-! ### One step -/

theorem exec_withPast (i : Instr) :
    exec i (s.withPast past) = outcomeWithPast past (exec i s) := by
  cases i with
  | pktRecv => exact execPktRecv_withPast s past
  | pktAccept => exact execPktAccept_withPast s past
  | pktMismatch => exact execPktMismatch_withPast s past
  | resyncResume => exact execResyncResume_withPast s past
  | busRecoverBegin => exact execBusRecoverBegin_withPast s past
  | busRecoverEnd => exact execBusRecoverEnd_withPast s past
  | segReject => exact execSegReject_withPast s past
  | segCommit => exact execSegCommit_withPast s past
  | composite => exact execComposite_withPast s past
  | colorize => exact execColorize_withPast s past
  | presentDone => exact execPresentDone_withPast s past
  | hostRead addr wdata => exact execHostRead_withPast s past addr wdata
  | hostWrite addr wdata => exact execHostWrite_withPast s past addr wdata
  | cmdRangeDone wdataHi => exact execCmdRangeDone_withPast s past wdataHi

@[simp] theorem State.delayTurn_withPast :
    (s.withPast past).delayTurn = s.delayTurn.withPast past := by
  simp only [State.delayTurn, State.delayPending_withPast, State.emit_withPast]
  split <;> rfl

@[simp] theorem State.sinkTurn_withPast :
    (s.withPast past).sinkTurn = s.sinkTurn.withPast past := by
  simp only [State.sinkTurn, State.presentPending_withPast, State.emit_withPast]
  split <;> rfl

theorem coreTurn_withPast :
    coreTurn (s.withPast past) = outcomeWithPast past (coreTurn s) := by
  simp only [coreTurn, State.dispatchWord_withPast]
  split
  · exact exec_withPast s past _
  · rfl
  · rfl

theorem agentTurn_withPast :
    agentTurn (s.withPast past) = outcomeWithPast past (agentTurn s) := by
  simp only [agentTurn, State.withPast_turns, State.popTurn_withPast, State.delayTurn_withPast,
    State.sinkTurn_withPast, coreTurn_withPast, exec_withPast]
  split <;> rfl

/-- The history is not read: a step on a state with more past is the same step with that past. -/
theorem step_withPast : step (s.withPast past) = outcomeWithPast past (step s) := by
  simp only [step, State.withPast_phase, agentTurn_withPast]
  split <;> rfl

end

/-- Settles O52: the appended events are the history the step makes from the empty history. -/
theorem historyGrowsAndIsNeverRead : Obligations.HistoryGrowsAndIsNeverRead := by
  intro s t hstep
  have hany (h : List Event) : step { s with history := h } =
      outcomeWithPast h (step { s with history := [] }) := by
    rw [s.setHistory_eq_withPast, step_withPast]
  have hs : step s = _ := hany s.history
  rw [hstep] at hs
  cases h₀ : step { s with history := [] } with
  | next t₀ =>
    rw [h₀] at hs
    cases hs
    exact ⟨t₀.history, rfl, fun h => by rw [hany, h₀]; rfl⟩
  | fault r => rw [h₀] at hs; cases hs
  | refused r => rw [h₀] at hs; cases hs

end Sys2Proof.Machine
end

section
/-! Requests (R102): the transaction a request is, by its fields; and CMD_RANGE_DONE as a case of
HOST_WRITE (R201, R202). -/

namespace Sys2Proof.Machine

/-- WDATA[7:0], read from the request itself. -/
theorem reqData_low (q : HostReq) : (reqData q).extractLsb' 0 8 = q.extractLsb' 0 8 :=
  BitVec.extractLsb'_extractLsb'_of_le (by decide)

/-- Without WR the request is no CMD_RANGE_DONE and no write, so it reads. -/
theorem decodeHost_of_not_wr {q : HostReq} (hw : q.getLsbD 52 = false) :
    decodeHost q = .hostRead (reqAddr q) (reqData q) := by
  have hwr : reqWr q ≠ 1 := mt (reqWr_eq_one_iff q).mp (by rw [hw]; decide)
  rcases decodeHost_cases q with ⟨hmask, -⟩ | ⟨hwr', -⟩ | ⟨-, hd⟩
  · exact absurd ((rangeDone_mask_iff q).mp hmask).1 hwr
  · exact absurd hwr' hwr
  · exact hd

/-- CMD_RANGE_DONE's row has the priority (R102). -/
theorem decodeHost_of_rangeDone {q : HostReq} (hw : q.getLsbD 52 = true)
    (haddr : reqAddr q = 0x00018) (hcode : q.extractLsb' 0 8 = 0x01) :
    decodeHost q = .cmdRangeDone (q.extractLsb' 8 24) :=
  if_pos ((rangeDone_mask_iff q).mpr
    ⟨(reqWr_eq_one_iff q).mpr hw, haddr, (reqData_low q).trans hcode⟩)

theorem decodeHost_of_wr {q : HostReq} (hw : q.getLsbD 52 = true)
    (hother : ¬(reqAddr q = 0x00018 ∧ q.extractLsb' 0 8 = 0x01)) :
    decodeHost q = .hostWrite (reqAddr q) (reqData q) := by
  rcases decodeHost_cases q with ⟨hmask, -⟩ | ⟨-, hd⟩ | ⟨hwr, -⟩
  · obtain ⟨-, haddr, hcode⟩ := (rangeDone_mask_iff q).mp hmask
    exact absurd ⟨haddr, (reqData_low q).symm.trans hcode⟩ hother
  · exact hd
  · exact absurd ((reqWr_eq_one_iff q).mpr hw) hwr

/-- A write to CMD is the command of its low byte (R201, R104). -/
theorem State.hostStore_cmd (s : State) (v : HostWord) :
    s.hostStore 0x018 v = s.command (v.extractLsb' 0 8) := rfl

theorem rangeDoneData_low (hi : BitVec 24) : (rangeDoneData hi).extractLsb' 0 8 = 0x01 :=
  BitVec.extractLsb'_append_eq_right

/-- The general write, applied to a CMD write of code 0x01, is CMD_RANGE_DONE. -/
theorem exec_hostWrite_rangeDoneData (hi : BitVec 24) (s : State) :
    exec (.hostWrite 0x00018 (rangeDoneData hi)) s = exec (.cmdRangeDone hi) s := by
  have hcmd : s.hostStore (0x00018 : HostAddr).toNat (rangeDoneData hi) = s.command 0x01 := by
    rw [← rangeDoneData_low hi]; exact s.hostStore_cmd _
  simp only [exec, execHostWrite, execCmdRangeDone]
  rw [hcmd]

/-- Settles O6: a request by its fields, and the hand-over of R201. -/
theorem requestSelectsTransaction : Obligations.RequestSelectsTransaction :=
  ⟨fun _ => decodeHost_of_not_wr, fun _ => decodeHost_of_rangeDone, fun _ => decodeHost_of_wr,
    exec_hostWrite_rangeDoneData⟩

end Sys2Proof.Machine
end

section
/-! The dispatch word (R98, R99): its rows, the condition behind each bit, and the one operation it
selects. -/

namespace Sys2Proof.Machine

/-! ### The bits (R98) -/

theorem State.bitM_iff (s : State) :
    s.bitM = true ↔ s.mem.read (rxpktAddr 1) = s.j.setWidth 8 := beq_iff_eq

theorem State.bitM_eq_false_iff (s : State) :
    s.bitM = false ↔ s.mem.read (rxpktAddr 1) ≠ s.j.setWidth 8 :=
  Bool.eq_false_iff.trans s.bitM_iff.not

theorem State.bitT_iff (s : State) : s.bitT = true ↔ s.resyncCnt = 750 := beq_iff_eq

theorem State.bitT_eq_false_iff (s : State) : s.bitT = false ↔ s.resyncCnt ≠ 750 :=
  Bool.eq_false_iff.trans s.bitT_iff.not

theorem segidValid_iff (g : BitVec 4) : segidValid g = true ↔ 1 ≤ g.toNat ∧ g.toNat ≤ 4 := by
  simp [segidValid]

theorem State.bitK_iff (s : State) :
    s.bitK = true ↔ s.elapsedSig = true ∨ s.returnedSig = true := Bool.or_eq_true_iff

/-- The table of R98 row by row; the rows of the concatenation are reached as STATUS's are in
`State.statusWord_rows`. -/
theorem State.dispatchWord_rows (s : State) :
    s.dispatchWord.extractLsb' 0 4 = s.phase ∧
    s.dispatchWord.extractLsb' 4 1 = BitVec.ofBool s.bitM ∧
    s.dispatchWord.extractLsb' 5 1 = BitVec.ofBool s.bitT ∧
    s.dispatchWord.extractLsb' 6 1 = BitVec.ofBool s.bitV ∧
    s.dispatchWord.extractLsb' 7 1 = 0#1 ∧
    s.dispatchWord.extractLsb' 8 1 = BitVec.ofBool s.bitK ∧
    s.dispatchWord.extractLsb' 9 7 = 0#7 := by
  refine ⟨?phase, ?m, ?t, ?v, ?bit7, ?k, ?bits9⟩ <;>
    simp (disch := decide) only [State.dispatchWord, BitVec.extractLsb'_append_eq_of_le,
      BitVec.extractLsb'_append_eq_of_add_le, Nat.reduceSub, BitVec.extractLsb'_eq_self]

/-- Settles O7: the rows of R98's table, and for each one-bit row the condition it stands for. -/
theorem dispatchWordBits : Obligations.DispatchWordBits := by
  intro s
  obtain ⟨phase, m, t, v, bit7, k, bits9⟩ := s.dispatchWord_rows
  refine ⟨phase, ?_, ?_, ?_, getLsbD_of_extractLsb'_eq_ofBool (b := false) bit7, ?_, bits9⟩
  · rw [getLsbD_of_extractLsb'_eq_ofBool m]; exact s.bitM_iff
  · rw [getLsbD_of_extractLsb'_eq_ofBool t]; exact s.bitT_iff
  · rw [getLsbD_of_extractLsb'_eq_ofBool v]; exact segidValid_iff s.stagedSegid
  · rw [getLsbD_of_extractLsb'_eq_ofBool k]; exact s.bitK_iff

/-! ### The table (R99) -/

/-- Any two rows of the table differ on a bit that both their masks cover. -/
theorem dispatchTable_separated : ∀ r ∈ dispatchTable, ∀ r' ∈ dispatchTable,
    r.mtch &&& r'.mask = r'.mtch &&& r.mask → r = r' := by decide

/-- A word that matches two rows gives both their match bits on the bits that both masks cover. -/
theorem dispatchRow_unique (d : DispatchWord) : ∀ r ∈ dispatchTable, ∀ r' ∈ dispatchTable,
    d &&& r.mask = r.mtch → d &&& r'.mask = r'.mtch → r = r' := by
  intro r hr r' hr' hm hm'
  refine dispatchTable_separated r hr r' hr' ?_
  rw [← hm, ← hm', BitVec.and_assoc, BitVec.and_assoc, BitVec.and_comm r.mask]

/-- The first row that matches is the row that matches. -/
theorem decodeDispatch_of_match {d : DispatchWord} {r : DispatchRow} (hr : r ∈ dispatchTable)
    (hm : d &&& r.mask = r.mtch) : decodeDispatch d = .ok r.op := by
  cases hf : dispatchTable.find? (·.hits d) with
  | none => exact absurd (beq_iff_eq.mpr hm) (List.find?_eq_none.mp hf r hr)
  | some r' =>
    have hm' : d &&& r'.mask = r'.mtch := by
      simpa [DispatchRow.hits] using List.find?_some hf
    have heq : r' = r := dispatchRow_unique d r' (List.mem_of_find?_eq_some hf) r hr hm' hm
    rw [decodeDispatch, hf, heq]

/-! ### The operation the CORE performs -/

theorem CoreCase.phase_le {s : State} {i : Instr} (h : CoreCase s i) : s.phase.toNat ≤ 8 := by
  cases h <;> simp [*]

theorem CoreCase.selected {s : State} {i : Instr} (h : CoreCase s i) :
    selectedBy s.phase s.bitM s.bitT s.bitV s.bitK = .ok i := by
  cases h <;> simp [selectedBy, *]

/-- A condition of R99's table decides the CORE's step. -/
theorem CoreCase.step_eq {s : State} {i : Instr} (h : CoreCase s i) (hc : s.coreNext) :
    step s = exec i s.popTurn := by
  rw [step_of_legalPhase h.phase_le, agentTurn_core hc, coreTurn_popTurn, h.selected]

theorem coreCase_of_match {s : State} {r : DispatchRow} (hr : r ∈ dispatchTable)
    (hm : s.dispatchWord &&& r.mask = r.mtch) : CoreCase s r.op :=
  coreCase_of_selected ((decodeDispatch_dispatchWord s).symm.trans (decodeDispatch_of_match hr hm))

/-- Settles O15: the rows exclude each other, and a matched row or a condition of the table is the
`CoreCase` of its operation. -/
theorem coreSelectsByCondition : Obligations.CoreSelectsByCondition := by
  refine ⟨rfl, dispatchRow_unique, fun s hc => ?_⟩
  exact ⟨fun r hr hm => (coreCase_of_match hr hm).step_eq hc,
    fun hp => (CoreCase.pktRecv hp).step_eq hc,
    fun hp hm => (CoreCase.pktAccept hp (s.bitM_iff.mpr hm)).step_eq hc,
    fun hp hm => (CoreCase.pktMismatch hp (s.bitM_eq_false_iff.mpr hm)).step_eq hc,
    fun hp hk ht => (CoreCase.resyncResume hp hk (s.bitT_eq_false_iff.mpr ht)).step_eq hc,
    fun hp hk ht => (CoreCase.busRecoverBegin hp hk (s.bitT_iff.mpr ht)).step_eq hc,
    fun hp hk => (CoreCase.busRecoverEnd hp hk).step_eq hc,
    fun hp hv => (CoreCase.segReject hp hv).step_eq hc,
    fun hp hv => (CoreCase.segCommit hp hv).step_eq hc,
    fun hp => (CoreCase.composite hp).step_eq hc,
    fun hp => (CoreCase.colorize hp).step_eq hc,
    fun hp hk => (CoreCase.presentDone hp hk).step_eq hc⟩

end Sys2Proof.Machine
end

section
/-! PHASE (R20, R100): where each meaning passes control, and that no step enters a reserved code. -/

namespace Sys2Proof.Machine

theorem State.hostLoad_phase (s : State) (a : Nat) : (s.hostLoad a).2.phase = s.phase := by
  rcases s.hostLoad_state a with h | h <;> rw [h]

/-- A command stays in its phase or hands the frame to COLORIZE (R175). -/
theorem State.command_phase (s : State) (code : Byte) :
    (s.command code).2.phase = s.phase ∨ (s.command code).2.phase = phColorize := by
  rcases s.command_cases code with ⟨-, -, h⟩ | ⟨-, h⟩ <;> rw [h]
  · exact .inr rfl
  · exact .inl rfl

/-- A write stays in its phase too or, through CMD, passes control to COLORIZE (R201). -/
theorem State.hostStore_phase (s : State) (a : Nat) (v : HostWord) :
    (s.hostStore a v).2.phase = s.phase ∨ (s.hostStore a v).2.phase = phColorize := by
  rcases s.hostStore_cases a v with
    h | ⟨-, h⟩ | ⟨-, h⟩ | ⟨-, h⟩ | ⟨-, h⟩ | ⟨-, h⟩ | ⟨-, -, -, -, h⟩ <;> rw [h]
  case inr.inr.inr.inr.inr.inl => exact s.command_phase _
  all_goals exact .inl rfl

theorem State.delayTurn_phase (s : State) : s.delayTurn.phase = s.phase := by
  unfold State.delayTurn; split <;> rfl

theorem State.sinkTurn_phase (s : State) : s.sinkTurn.phase = s.phase := by
  unfold State.sinkTurn; split <;> rfl

/-- Where an operation that answers a next state can leave PHASE, when it began in `p` (R20). -/
def phasesAfter (p : BitVec 4) : Instr → List (BitVec 4)
  | .pktRecv => [phCheck]
  | .pktAccept => [phSegCheck, phAcq]
  | .pktMismatch => [phResyncWait]
  | .resyncResume => [phAcq]
  | .busRecoverBegin => [phRecoverWait]
  | .busRecoverEnd => [phAcq]
  | .segReject => [phAcq]
  | .segCommit => [phComposite, phAcq]
  | .composite => [phRangeWait, phColorize]
  | .colorize => [phPresentWait]
  | .presentDone => [phAcq]
  | .hostRead _ _ => [p]
  | .hostWrite _ _ => [p, phColorize]
  | .cmdRangeDone _ => [p, phColorize]

theorem execPktAccept_phase {s t : State} (h : execPktAccept s = .next t) :
    t.phase = phSegCheck ∨ t.phase = phAcq := by
  simp only [execPktAccept] at h
  split at h
  · cases h
  · split at h <;> cases h
    · exact .inl rfl
    · exact .inr rfl

theorem execSegCommit_phase {s t : State} (h : execSegCommit s = .next t) :
    t.phase = phComposite ∨ t.phase = phAcq := by
  simp only [execSegCommit] at h
  split at h <;> cases h
  exact ite_eq_or_eq _ _ _

theorem execComposite_phase {s t : State} (h : execComposite s = .next t) :
    t.phase = phRangeWait ∨ t.phase = phColorize := by
  cases h
  split
  · exact .inl rfl
  · exact .inr rfl

theorem execColorize_phase {s t : State} (h : execColorize s = .next t) :
    t.phase = phPresentWait := by
  simp only [execColorize] at h
  split at h <;> cases h
  rfl

theorem exec_phase {i : Instr} {s t : State} (h : exec i s = .next t) :
    t.phase ∈ phasesAfter s.phase i := by
  cases i with
  | pktAccept => simpa [phasesAfter] using execPktAccept_phase h
  | segCommit => simpa [phasesAfter] using execSegCommit_phase h
  | composite => simpa [phasesAfter] using execComposite_phase h
  | colorize => simpa [phasesAfter] using execColorize_phase h
  | hostRead addr wdata => cases h; simpa [phasesAfter, completeHost] using s.hostLoad_phase _
  | hostWrite addr wdata => cases h; simpa [phasesAfter, completeHost] using s.hostStore_phase _ _
  | cmdRangeDone wdataHi => cases h; simpa [phasesAfter, completeHost] using s.command_phase _
  | _ => cases h; exact List.mem_singleton.mpr rfl

theorem phasesAfter_le {p p' : BitVec 4} {i : Instr} (hp : p.toNat ≤ 8)
    (h : p' ∈ phasesAfter p i) : p'.toNat ≤ 8 := by
  revert p'
  cases i <;> simp [phasesAfter, hp]

/-- No step enters a reserved phase, since it begins in a legal one (R100). -/
theorem step_phase_le {s t : State} (h : step s = .next t) : t.phase.toNat ≤ 8 := by
  have hs : s.phase.toNat ≤ 8 := phase_of_step h
  cases step_cases h with
  | hold _ _ ht => rw [ht]; exact hs
  | core i _ _ ht => exact phasesAfter_le hs (exec_phase (s := s.popTurn) ht)
  | host q _ ht => exact phasesAfter_le hs (exec_phase (s := s.popTurn) ht)
  | delay _ ht => rw [ht, State.delayTurn_phase]; exact hs
  | sink _ ht => rw [ht, State.sinkTurn_phase]; exact hs

theorem step_of_reservedPhase {s : State} (h : 9 ≤ s.phase.toNat) :
    step s = .fault .reservedPhase :=
  if_pos ((phaseReserved_iff _).mpr h)

/-- Settles O16: the fault comes before any agent's turn, and every turn leaves a legal phase. -/
theorem reservedPhaseFaults : Obligations.ReservedPhaseFaults :=
  ⟨fun _ => step_of_reservedPhase, fun _ _ => step_phase_le, by decide⟩

end Sys2Proof.Machine
end

section
/-! Palette offsets (R95, R173) and the packed colour (R96). -/

namespace Sys2Proof.Machine

theorem paletteOffset_cast (v : Int) (c : Nat) :
    (paletteOffset v c : Int) = min (max (3 * v + c) 0) 767 :=
  Int.toNat_of_nonneg (by omega)

/-- Entry v, with nothing to clamp. -/
theorem paletteOffset_of_byte {v : Int} {c : Nat} (hc : c < 3) (h0 : 0 ≤ v) (h255 : v ≤ 255) :
    paletteOffset v c = 3 * v.toNat + c := by
  have := paletteOffset_cast v c
  omega

theorem paletteOffset_of_high {v : Int} (c : Nat) (h : 256 ≤ v) : paletteOffset v c = 767 := by
  have := paletteOffset_cast v c
  omega

theorem paletteOffset_of_low {v : Int} {c : Nat} (hc : c < 3) (h : v ≤ -1) :
    paletteOffset v c = 0 := by
  have := paletteOffset_cast v c
  omega

/-- Settles O37: the offset by the three ranges of v. -/
theorem paletteLookupClamps : Obligations.PaletteLookupClamps := by
  intro m v c hc
  refine ⟨rfl, paletteOffset_cast v c, fun h0 h255 => ?_, fun h => ?_, fun h => ?_⟩
  · rw [paletteByte, paletteOffset_of_byte hc h0 h255]
  · rw [paletteByte, paletteOffset_of_high c h]
  · rw [paletteByte, paletteOffset_of_low hc h]

/-- Settles O38: the fields of the concatenation. -/
theorem packedColourFields : Obligations.PackedColourFields := by
  intro r g b
  refine ⟨?red, ?green, ?blue⟩ <;>
    simp (disch := decide) only [pack565, BitVec.extractLsb'_append_eq_of_le,
      BitVec.extractLsb'_append_eq_of_add_le, Nat.reduceSub, BitVec.extractLsb'_eq_self]

end Sys2Proof.Machine
end

section
/-! The Packet Synchronizer's operations (R120 to R125): the next state of each, written out whole. -/

namespace Sys2Proof.Machine

/-! ### The bytes of a block (R66) -/

theorem rxpktAddr_add (i : Nat) : rxpktAddr 0 + i = rxpktAddr i := rfl

theorem stagingAddr_add (p i : Nat) : stagingAddr p 0 + i = stagingAddr p i := rfl

/-- A copied block reads as its source did. -/
theorem Memory.read_store_load {m : Memory} (hm : m.wf) (dst src : Nat) {n i : Nat} (hi : i < n) :
    (m.store dst (m.load src n)).read (dst + i) = m.read (src + i) := by
  have hlen : i < (m.load src n).length := by rwa [Memory.load_length]
  rw [Memory.read_store_inside hm.1 dst hlen, Memory.load_getElem hm.1]

/-! ### One packet in (R120) -/

theorem execPktRecv_eq (s : State) : execPktRecv s = .next { s with
    mem := s.mem.store (rxpktAddr 0) (s.rxBytes 164)
    phase := phCheck
    history := s.history ++ .csAssert :: (s.rxBytes 164).map (fun b => .xfer 0x00 b)
      ++ [.csDeassert]
    rxIn := s.rxIn.drop 164
    draws := s.draws + (164 - s.rxIn.length) } := by
  rw [List.append_assoc]
  rfl

/-- Settles O18: the received bytes are `rxBytes`, stored as one block. -/
theorem pktRecvEffect : Obligations.PktRecvEffect := by
  refine ⟨by decide, fun s hm => ⟨s.mem.store (rxpktAddr 0) (s.rxBytes 164), s.rxBytes 164,
    s.rxIn.drop 164, s.draws + (164 - s.rxIn.length), s.rxBytes_length 164, execPktRecv_eq s,
    fun i hi => ?received, fun a ha => ?others, Memory.store_wf hm _ _⟩⟩
  case received =>
    have hlen : i < (s.rxBytes 164).length := by rwa [State.rxBytes_length]
    rw [← rxpktAddr_add i, Memory.read_store_inside hm.1 _ hlen, List.getD_eq_getElem _ _ hlen]
  case others =>
    exact Memory.read_store_outside hm.1 (by rwa [State.rxBytes_length])

/-! ### An accepted packet (R121) -/

theorem execPktAccept_eq {s : State} (hj : s.j.toNat ≤ 59) : execPktAccept s = .next { s with
    mem := s.mem.store (stagingAddr s.j.toNat 0) (s.mem.load (rxpktAddr 0) 164)
    resyncCnt := if s.params.clearPolicy = .onAccept then 0 else s.resyncCnt
    j := if s.j = 59 then 0 else s.j + 1
    phase := if s.j = 59 then phSegCheck else phAcq } := by
  have hslot : ¬ 60 ≤ s.j.toNat := by omega
  by_cases hlast : s.j.toNat = 59
  · have hj59 : s.j = 59#6 := BitVec.eq_of_toNat_eq hlast
    cases hp : s.params.clearPolicy <;> simp [execPktAccept, hj59, hp]
  · have hj59 : s.j ≠ 59#6 := mt (congrArg BitVec.toNat) hlast
    cases hp : s.params.clearPolicy <;> simp [execPktAccept, hslot, hlast, hj59, hp]

/-- Settles O20: RXPKT is copied as one block into slot J. -/
theorem pktAcceptEffect : Obligations.PktAcceptEffect := by
  refine ⟨by decide, fun s hm hj => ⟨_, execPktAccept_eq hj, fun i hi => ?slot, fun a ha => ?others,
    Memory.store_wf hm _ _⟩⟩
  case slot =>
    rw [← stagingAddr_add _ i, Memory.read_store_load hm _ _ hi, rxpktAddr_add]
  case others =>
    exact Memory.read_store_outside hm.1 (by rwa [Memory.load_length])

/-! ### A mismatch, its delay and the bus recovery (R122 to R125) -/

/-- Settles O21: the two records are appended one after the other. -/
theorem pktMismatchEffect : Obligations.PktMismatchEffect := by
  refine ⟨by decide, fun s => ?_⟩
  simp [exec, execPktMismatch, State.recordEvent, State.delayUs, State.emit, State.goto]

/-- Settles O22: the meaning is the statement, and its row is in the table. -/
theorem resyncResumeEffect : Obligations.ResyncResumeEffect :=
  ⟨by decide, fun _ => rfl⟩

/-- Settles O23: the three records are appended one after the other. -/
theorem busRecoverBeginEffect : Obligations.BusRecoverBeginEffect := by
  refine ⟨by decide, fun s => ?_⟩
  simp [exec, execBusRecoverBegin, State.recordEvent, State.delayUs, State.emit, State.goto,
    Config.recoveryDelayUs]

/-- Settles O24: one record, appended last to the history. -/
theorem busRecoverEndEffect : Obligations.BusRecoverEndEffect :=
  ⟨by decide, fun _ => rfl⟩

end Sys2Proof.Machine
end

section
/-! The Segment Assembler's operations (R140, R141): the next state of each, written out whole. -/

namespace Sys2Proof.Machine

/-! ### A rejected segment (R140) -/

/-- Settles O28: the meaning is the statement, and its row is in the table. -/
theorem segRejectEffect : Obligations.SegRejectEffect :=
  ⟨by decide, fun _ => rfl⟩

/-! ### A committed segment (R141)

STAGING and each SEGSTORE buffer lay their 60 packets out alike (R66), so that one block copy moves
every byte to its place. -/

theorem segstoreAddr_packet (k p i : Nat) :
    segstoreAddr k 0 0 + (164 * p + i) = segstoreAddr k p i := by
  simp only [segstoreAddr]
  omega

theorem stagingAddr_packet (p i : Nat) : stagingAddr 0 0 + (164 * p + i) = stagingAddr p i := by
  simp only [stagingAddr]
  omega

theorem execSegCommit_eq {s : State} {g : Nat} (h1 : 1 ≤ g) (h4 : g ≤ 4)
    (hg : s.stagedSegid.toNat = g) : execSegCommit s = .next { s with
      mem := s.mem.store (segstoreAddr (g - 1) 0 0) (s.mem.load (stagingAddr 0 0) 9840)
      wrongsegCnt := 0
      lastSegid := BitVec.ofNat 3 g
      phase := if g = 4 then phComposite else phAcq } := by
  subst hg
  have hvalid : segidValid s.stagedSegid = true := (segidValid_iff _).mpr ⟨h1, h4⟩
  have hfour : s.stagedSegid = 4 ↔ s.stagedSegid.toNat = 4 := BitVec.toNat_inj.symm
  simp only [execSegCommit, if_pos hvalid, hfour, BitVec.ofNat_toNat]

/-- Settles O29: STAGING is copied as one block of 60 packets into the identifier's buffer. -/
theorem segCommitEffect : Obligations.SegCommitEffect := by
  refine ⟨by decide, fun s g hm h1 h4 hg => ⟨_, execSegCommit_eq h1 h4 hg, fun p hp i hi => ?buffer,
    fun a ha => ?others, Memory.store_wf hm _ _⟩⟩
  case buffer =>
    have hinside : 164 * p + i < 9840 := by omega
    rw [← segstoreAddr_packet _ p i, Memory.read_store_load hm _ _ hinside, stagingAddr_packet]
  case others =>
    exact Memory.read_store_outside hm.1 (by rwa [Memory.load_length, segstoreAddr_packet _ 60 0])

end Sys2Proof.Machine
end

section
/-! The payload decoder's operation (R150): the pass over the stored segments, cell by cell, and the
next state of COMPOSITE written out whole. -/

namespace Sys2Proof.Machine

/-! ### The pass: its cells (R154) and its drops (R153) -/

/-- The pass of COMPOSITE from a state's memory and counter (R150). -/
def State.pass (s : State) : PassData :=
  compositePass { mem := s.mem, zeroCnt := s.zeroCnt, dropped := false }

theorem State.pass_spec {s : State} (hm : s.mem.wf) :
    PassSpec s.mem s.zeroCnt false passOrder s.pass :=
  compositePass_spec s.mem s.zeroCnt false hm

/-- The cell of payload word k, as an offset into its packet's half-row (R94). -/
theorem cellAddr_halfRow (g p k : Nat) :
    cellAddr tframeBase (rowOf g p) (colOf p k) = halfRow g p + 2 * k := by
  rw [cellAddr_word, halfRow_addr, halfRow]

/-- A word that no sentinel precedes or equals is written (R154). -/
theorem State.pass_cell_written {s : State} (hm : s.mem.wf) {g p k : Nat}
    (hgp : (g, p) ∈ passOrder) (hk : k < 80) (hwords : ∀ l ≤ k, storedSample s.mem g p l ≠ 0) :
    s.pass.mem.cell (cellAddr tframeBase (rowOf g p) (colOf p k)) = storedSample s.mem g p k := by
  have hkept : k < (keptWords s.mem g p).length := (lt_keptWords_length_iff _ _ _ _ hk).mpr hwords
  rw [cellAddr_halfRow, (State.pass_spec hm).kept _ hgp k hkept, keptWords_getElem]

/-- A sentinel's cell and those of the words after it stay (R153). -/
theorem State.pass_cell_kept {s : State} (hm : s.mem.wf) {g p k : Nat}
    (hgp : (g, p) ∈ passOrder) (hk : k < 80) (hsentinel : ∃ l ≤ k, storedSample s.mem g p l = 0) :
    s.pass.mem.cell (cellAddr tframeBase (rowOf g p) (colOf p k)) =
      s.mem.cell (cellAddr tframeBase (rowOf g p) (colOf p k)) := by
  have hdropped : ¬ k < (keptWords s.mem g p).length := by
    rw [lt_keptWords_length_iff _ _ _ _ hk]
    push Not
    exact hsentinel
  rw [cellAddr_halfRow, (State.pass_spec hm).rest _ hgp k (Nat.le_of_not_lt hdropped) hk]

theorem State.pass_zeroCnt {s : State} (hm : s.mem.wf) :
    s.pass.zeroCnt = s.zeroCnt + BitVec.ofNat 32 (sentinelPackets s.mem) :=
  (State.pass_spec hm).count

/-- The pseudocode's `dropped` says that some packet holds a sentinel. -/
theorem State.pass_dropped_eq_false_iff {s : State} (hm : s.mem.wf) :
    s.pass.dropped = false ↔ sentinelPackets s.mem = 0 := by
  rw [(State.pass_spec hm).flag, Bool.false_or, List.any_eq_false]
  exact (List.length_eq_zero_iff.trans List.filter_eq_nil_iff).symm

/-! ### The way on (R155) -/

theorem State.autoRange_iff (s : State) :
    s.autoRange = true ↔ s.rangeCtrl.getLsbD 0 = true ∨ s.rangeCtrl.getLsbD 1 = true :=
  Bool.or_eq_true_iff

theorem State.autoRange_of_rangeCtrl_eq_zero {s : State} (h : s.rangeCtrl = 0) :
    s.autoRange = false := by
  rw [State.autoRange, h]
  rfl

theorem State.scaleLatch_of_lt {s : State} (h : s.rangeMin.toNat < s.rangeMax.toNat) :
    s.scaleLatch = { s with
      scaleSpan := s.rangeMax - s.rangeMin
      scaleHeld := false
      minL := s.rangeMin } :=
  if_pos h

theorem State.scaleLatch_of_le {s : State} (h : s.rangeMax.toNat ≤ s.rangeMin.toNat) :
    s.scaleLatch = { s with
      scaleHeld := true
      minL := s.rangeMin
      evt := 5
      history := s.history ++ [.errEvent 5] } :=
  if_neg (Nat.not_lt.mpr h)

/-- The state after the pass and the one record of its drops, before the way on (R150). -/
@[simps rangeMin rangeMax] def State.composited (s : State) : State := { s with
  mem := s.pass.mem
  zeroCnt := s.zeroCnt + BitVec.ofNat 32 (sentinelPackets s.mem)
  evt := if sentinelPackets s.mem = 0 then s.evt else 4
  history := s.history ++ if sentinelPackets s.mem = 0 then [] else [.errEvent 4] }

theorem execComposite_eq {s : State} (hm : s.mem.wf) : execComposite s =
    .next (if s.autoRange then s.composited.goto phRangeWait
      else s.composited.scaleLatch.goto phColorize) := by
  have hrecord : (if s.pass.dropped then
      State.recordEvent { s with mem := s.pass.mem, zeroCnt := s.pass.zeroCnt } evSampleSentinel
      else { s with mem := s.pass.mem, zeroCnt := s.pass.zeroCnt }) = s.composited := by
    rw [State.composited, State.pass_zeroCnt hm]
    by_cases hnone : sentinelPackets s.mem = 0
    · simp [(State.pass_dropped_eq_false_iff hm).mpr hnone, hnone]
    · simp [mt (State.pass_dropped_eq_false_iff hm).mp hnone, hnone, State.recordEvent]
  rw [← hrecord]
  rfl

/-- COMPOSITE without auto-ranging. -/
theorem execComposite_of_rangeCtrl_eq_zero {s : State} (hm : s.mem.wf) (h : s.rangeCtrl = 0) :
    execComposite s = .next (s.composited.scaleLatch.goto phColorize) := by
  simp [execComposite_eq hm, State.autoRange_of_rangeCtrl_eq_zero h]

/-- Settles O32: the pass packet by packet (`compositePass_spec`), then the way on. -/
theorem compositeEffect : Obligations.CompositeEffect := by
  refine ⟨by decide, fun s hm => ⟨s.pass.mem, s.composited, rfl, fun hauto => ?rangeWait,
    fun hoff hlt => ?latched, fun hoff hle => ?held, fun g p k h1 h4 hp hk => ?cells,
    fun a ha => compositePass_outside hm ha, (State.pass_spec hm).wf⟩⟩
  case rangeWait =>
    simp [exec, execComposite_eq hm, s.autoRange_iff.mpr hauto, State.goto]
  case latched =>
    simp [exec, execComposite_of_rangeCtrl_eq_zero hm hoff, State.scaleLatch_of_lt, hlt,
      State.goto]
  case held =>
    simp [exec, execComposite_of_rangeCtrl_eq_zero hm hoff, State.scaleLatch_of_le, hle,
      State.goto]
  case cells =>
    have hgp : (g, p) ∈ passOrder := mem_passOrder.mpr ⟨⟨h1, h4⟩, hp⟩
    exact ⟨State.pass_cell_written hm hgp hk, State.pass_cell_kept hm hgp hk⟩

end Sys2Proof.Machine
end

section
/-! Exact arithmetic (R171): binary64 rounding and rounding half away from 0. -/

namespace Sys2Proof.Machine

/-! ### fl64 -/

/-- Any exponent whose binade holds |q| is the one that `ulp` computes. -/
theorem ulp_eq_of_binade {q : Rat} {e : Int} (hq : q ≠ 0) (hlow : (2 : Rat) ^ e ≤ |q|)
    (hhigh : |q| < (2 : Rat) ^ (e + 1)) : ulp q = (2 : Rat) ^ (e - 52) := by
  obtain ⟨hlow', hhigh'⟩ := floorLog2_spec (abs_pos.mpr hq)
  rw [ulp, magnitude_eq, pow2_eq, exponent_unique hlow' hhigh' hlow hhigh]

theorem fl64_zero : fl64 0 = 0 := if_pos rfl

theorem fl64_of_ne_zero {q : Rat} (hq : q ≠ 0) :
    fl64 q = (if 0 ≤ q then 1 else -1) * (roundHalfEven (|q| / ulp q) : Rat) * ulp q := by
  rw [fl64, if_neg hq, magnitude_eq]
  split
  · rw [one_mul]
  · rw [neg_one_mul, neg_mul]

/-! ### round_half_away -/

theorem roundHalfAway_of_nonneg {p : Rat} (hp : 0 ≤ p) : roundHalfAway p = (p + 1 / 2).floor :=
  if_pos hp

theorem roundHalfAway_of_neg {p : Rat} (hp : p < 0) : roundHalfAway p = -(-p + 1 / 2).floor :=
  if_neg hp.not_ge

/-- Below 0 the rounding mirrors the one above 0. -/
theorem roundHalfAway_eq_neg {p : Rat} (hp : p < 0) : roundHalfAway p = -roundHalfAway (-p) := by
  rw [roundHalfAway_of_neg hp, roundHalfAway_of_nonneg (neg_nonneg.mpr hp.le)]

/-- The error lies in (-1/2, 1/2]: a tie goes up. -/
theorem roundHalfAway_error_of_nonneg {p : Rat} (hp : 0 ≤ p) :
    -(1 / 2) < (roundHalfAway p : Rat) - p ∧ (roundHalfAway p : Rat) - p ≤ 1 / 2 := by
  have hle : ((p + 1 / 2).floor : Rat) ≤ p + 1 / 2 := Rat.floor_le _
  have hlt : p + 1 / 2 < ((p + 1 / 2).floor : Rat) + 1 := by
    exact_mod_cast Rat.lt_floor_add_one (p + 1 / 2)
  rw [roundHalfAway_of_nonneg hp]
  constructor <;> linarith

theorem roundHalfAway_nearest_of_nonneg {p : Rat} (hp : 0 ≤ p) :
    |(roundHalfAway p : Rat) - p| ≤ 1 / 2 ∧
      (|(roundHalfAway p : Rat) - p| = 1 / 2 → |p| < |(roundHalfAway p : Rat)|) := by
  obtain ⟨habove, hbelow⟩ := roundHalfAway_error_of_nonneg hp
  refine ⟨abs_le.mpr ⟨habove.le, hbelow⟩, fun htie => ?_⟩
  have hup : (roundHalfAway p : Rat) - p = 1 / 2 :=
    ((abs_eq (by norm_num)).mp htie).resolve_right habove.ne'
  calc |p| = p := abs_of_nonneg hp
    _ < (roundHalfAway p : Rat) := by linarith
    _ ≤ |(roundHalfAway p : Rat)| := le_abs_self _

theorem roundHalfAway_nearest (p : Rat) :
    |(roundHalfAway p : Rat) - p| ≤ 1 / 2 ∧
      (|(roundHalfAway p : Rat) - p| = 1 / 2 → |p| < |(roundHalfAway p : Rat)|) := by
  rcases le_or_gt 0 p with hp | hp
  · exact roundHalfAway_nearest_of_nonneg hp
  · have hmirror := roundHalfAway_nearest_of_nonneg (neg_nonneg.mpr hp.le)
    have herror : |(roundHalfAway p : Rat) - p| = |(roundHalfAway (-p) : Rat) - -p| := by
      rw [roundHalfAway_eq_neg hp, Int.cast_neg, ← neg_add', abs_neg, sub_neg_eq_add]
    rwa [herror, roundHalfAway_eq_neg hp, Int.cast_neg, abs_neg, ← abs_neg p]

/-- Settles O35: the exponent is unique, so that m' is `roundHalfEven`'s; `roundHalfAway` on a negative
p mirrors its value on -p. -/
theorem exactArithmeticHelpers : Obligations.ExactArithmeticHelpers := by
  refine ⟨fl64_zero, fun q e hq hlow hhigh => ?_, fun p =>
    ⟨roundHalfAway_of_nonneg, roundHalfAway_of_neg, roundHalfAway_nearest p⟩⟩
  rw [← ulp_eq_of_binade hq hlow hhigh]
  exact ⟨_, fl64_of_ne_zero hq, roundHalfEven_spec _⟩

end Sys2Proof.Machine
end

section
/-! The Colormap Quantizer's operations (R177, R178): the coloured frame cell by cell, and the next
state of each operation written out whole. -/

namespace Sys2Proof.Machine

/-! ### The frame and its colours (R177) -/

theorem Memory.frame_length {m : Memory} (hm : m.wf) (base : Nat) : (m.frame base).length = 19200 := by
  rw [Memory.frame, cellsOfBytes_load hm.1 base 19200, List.length_map, List.length_range]

theorem Memory.frame_getElem {m : Memory} (hm : m.wf) {base i : Nat} (hi : i < (m.frame base).length) :
    (m.frame base)[i] = m.cell (base + 2 * i) := by
  simp only [Memory.frame, cellsOfBytes_load hm.1 base 19200, List.getElem_map, List.getElem_range]

theorem State.colored_length {s : State} (hm : s.mem.wf) : s.colored.length = 19200 := by
  rw [State.colored, List.length_zipWith, Memory.frame_length hm, Memory.frame_length hm, min_self]

/-- A cell takes its sample's colour, or stays when the sample is the sentinel. -/
theorem State.colored_getElem {s : State} (hm : s.mem.wf) {i : Nat} (hi : i < s.colored.length) :
    s.colored[i] = if s.mem.cell (tframeBase + 2 * i) = 0 then s.mem.cell (dframeBase + 2 * i)
      else s.color (s.mem.cell (tframeBase + 2 * i)) := by
  simp only [State.colored, List.getElem_zipWith, Memory.frame_getElem hm]

theorem State.colored_bytes_length {s : State} (hm : s.mem.wf) :
    (bytesOfCells s.colored).length = 38400 := by
  rw [bytesOfCells_length, State.colored_length hm]

/-! ### COLORIZE and PRESENT_DONE -/

theorem execColorize_eq {s : State} (hspan : s.scaleSpan ≠ 0) : execColorize s = .next { s with
    mem := s.mem.store dframeBase (bytesOfCells s.colored)
    history := s.history ++ [.presentReq (s.descriptor s.colored)]
    phase := phPresentWait } :=
  if_neg hspan

/-- Settles O40: the coloured frame is stored as one block over DFRAME and handed on as it is. -/
theorem colorizeEffect : Obligations.ColorizeEffect := by
  refine ⟨by decide, fun s hm hspan => ⟨_, s.colored, execColorize_eq hspan, State.colored_length hm,
    fun r hr c hc => ?cells, fun a ha => ?others, Memory.store_wf hm _ _⟩⟩
  case cells =>
    have hi : 160 * r + c < s.colored.length := by
      rw [State.colored_length hm]
      omega
    have hstored := Memory.cell_store_inside hm.1 dframeBase hi
    exact ⟨(List.getD_eq_getElem _ _ hi).trans hstored.symm,
      hstored.trans (State.colored_getElem hm hi)⟩
  case others =>
    exact Memory.read_store_outside hm.1 (by rwa [State.colored_bytes_length hm])

/-- Settles O41: the meaning is the statement, and its row is in the table. -/
theorem presentDoneEffect : Obligations.PresentDoneEffect :=
  ⟨by decide, fun _ => rfl⟩

end Sys2Proof.Machine
end

section
/-! The host interface (R200, R201): what each kind of address answers and does, said once per kind. -/

namespace Sys2Proof.Machine

/-! ### Host words and their bytes (R68) -/

/-- A host word made of four consecutive values of `f` holds `f i` in bits 8i+7:8i. -/
theorem hostWordOf_byte (f : Nat → Byte) {i : Nat} (hi : i < 4) :
    (hostWordOf (f 0) (f 1) (f 2) (f 3)).extractLsb' (8 * i) 8 = f i := by
  interval_cases i <;>
    simp (disch := decide) only [hostWordOf, BitVec.extractLsb'_append_eq_of_le,
      BitVec.extractLsb'_append_eq_of_add_le, Nat.reduceSub, Nat.reduceMul, BitVec.extractLsb'_eq_self]

theorem Memory.hostWord_byte (m : Memory) (a : Nat) {i : Nat} (hi : i < 4) :
    (m.hostWord a).extractLsb' (8 * i) 8 = m.read (a + i) :=
  hostWordOf_byte (fun i => m.read (a + i)) hi

theorem bytesOfHostWord_getElem (v : HostWord) {i : Nat} (hi : i < (bytesOfHostWord v).length) :
    (bytesOfHostWord v)[i] = v.extractLsb' (8 * i) 8 := by
  have hi4 : i < 4 := hi
  interval_cases i <;> rfl

/-! ### Reads (R200) -/

theorem Window.holds_iff (w : Window) (a : Nat) :
    w.holds a = true ↔ w.base ≤ a ∧ a < w.base + w.size := by
  simp [Window.holds]

/-- The register file ends below the windows (R66). -/
theorem windows_base_ge : ∀ w ∈ windows, 0x01000 ≤ w.base := by decide

section
variable (s : State) {a : Nat}

/-- Past ZERO_CNT every offset is reserved (R37, R39). -/
theorem State.register_reserved (h : 0x02C ≤ a) : s.register a = none := by
  unfold State.register
  split
  case h_12 => rfl
  all_goals omega

theorem State.hostLoad_misaligned (h : a % 4 ≠ 0) : s.hostLoad a = (Resp.error, s) := if_pos h

theorem State.hostLoad_register (hal : a % 4 = 0) (hlow : a < 0x01000) {v : HostWord}
    (hv : s.register a = some v) : s.hostLoad a = (Resp.ok v, s) := by
  rw [State.hostLoad, if_neg (not_not.mpr hal), if_pos hlow, hv]

theorem State.hostLoad_reserved (hlow : a < 0x01000) (hres : 0x02C ≤ a) :
    s.hostLoad a = (Resp.error, s) := by
  rw [State.hostLoad, if_pos hlow, s.register_reserved hres, ite_self]

theorem State.hostLoad_unmapped (hhigh : 0x01000 ≤ a) (hno : ∀ w ∈ windows, w.holds a ≠ true) :
    s.hostLoad a = (Resp.error, s) := by
  rw [State.hostLoad, if_neg hhigh.not_gt, List.find?_eq_none.mpr hno, ite_self]

/-- An aligned word of a window: drawn in the window's writing phase (R73), else its four bytes. -/
theorem State.hostLoad_window {w : Window} (hw : w ∈ windows) (ha : w.holds a = true)
    (hal : a % 4 = 0) : s.hostLoad a =
      if w.drawPhase = some s.phase then (Resp.ok s.drawnWord, { s with draws := s.draws + 4 })
      else (Resp.ok (s.mem.hostWord a), s) := by
  have hhigh : 0x01000 ≤ a := (windows_base_ge w hw).trans ((w.holds_iff a).mp ha).1
  rw [State.hostLoad, if_neg (not_not.mpr hal), if_neg hhigh.not_gt, windows_find hw ha]

/-- HOST_READ adds to the read itself the record of the transaction (R77). -/
theorem exec_hostRead_of_hostLoad {addr : HostAddr} {r : Resp} {t : State} (wdata : HostWord)
    (h : s.hostLoad addr.toNat = (r, t)) : exec (.hostRead addr wdata) s = .next { t with
      history := t.history ++ [.host (hostReq 0 addr wdata) r] } := by
  rw [exec, execHostRead, h, completeHost_eq]

end

/-- Settles O43: the registers one by one, a window in and outside its writing phase, and the addresses
that answer ERR. -/
theorem hostReadEffect : Obligations.HostReadEffect := by
  refine fun s wdata => ⟨?registers, fun addr ⟨base, size, drawPhase⟩ hw hal hlo hhi => ?windows,
    fun addr h => ?errors⟩
  case registers =>
    simp only [List.forall_mem_cons]
    refine ⟨?_, ?_, ?_, ?_, ?_, ?_, ?_, ?_, ?_, ?_, ?_, by simp⟩ <;>
      exact exec_hostRead_of_hostLoad s wdata (s.hostLoad_register (by decide) (by decide) rfl)
  case windows =>
    have hmem : ⟨base, size, drawPhase⟩ ∈ windows := by simpa [windows] using hw
    have hload := s.hostLoad_window hmem ((Window.holds_iff _ _).mpr ⟨hlo, hhi⟩) hal
    by_cases hdraw : drawPhase = some s.phase
    · exact ⟨s.drawnWord, fun hne => absurd hdraw hne,
        fun _ => ⟨s.draws + 4, exec_hostRead_of_hostLoad s wdata (hload.trans (if_pos hdraw))⟩⟩
    · exact ⟨s.mem.hostWord addr.toNat, fun _ => ⟨fun _ => s.mem.hostWord_byte _,
        exec_hostRead_of_hostLoad s wdata (hload.trans (if_neg hdraw))⟩,
        fun heq => absurd heq hdraw⟩
  case errors =>
    refine exec_hostRead_of_hostLoad s wdata ?_
    rcases h with hmis | ⟨hres, hlow⟩ | hgap
    · exact s.hostLoad_misaligned hmis
    · exact s.hostLoad_reserved hlow hres
    · refine s.hostLoad_unmapped (by omega) ?_
      simp only [windows, List.forall_mem_cons, Ne, Window.holds_iff]
      refine ⟨?_, ?_, ?_, ?_, ?_, ?_, by simp⟩ <;> omega

/-! ### Writes (R201) -/

section
variable (s : State) (v : HostWord)

/-- Outside COLORIZE an aligned word of PALETTE takes the four bytes (R205). -/
theorem State.hostStore_palette {a : Nat} (hp : s.phase ≠ phColorize) (hal : a % 4 = 0)
    (hlo : 0x01000 ≤ a) (hhi : a < 0x01300) :
    s.hostStore a v = (Resp.ok 0, { s with mem := s.mem.store a (bytesOfHostWord v) }) := by
  rw [State.hostStore, if_neg (not_not.mpr hal), if_neg (by omega), if_neg (by omega),
    if_neg (by omega), if_neg (by omega), if_neg (by omega), if_pos (by omega), if_neg hp]

/-- What is neither a writable register nor an aligned word of PALETTE outside COLORIZE answers ERR. -/
theorem State.hostStore_error {a : Nat}
    (hreg : a ≠ 0x004 ∧ a ≠ 0x008 ∧ a ≠ 0x00C ∧ a ≠ 0x01C ∧ a ≠ 0x018)
    (hpal : 0x01000 ≤ a → a < 0x01300 → a % 4 = 0 → s.phase = phColorize) :
    s.hostStore a v = (Resp.error, s) := by
  rcases s.hostStore_cases a v with
    herr | ⟨rfl, -⟩ | ⟨rfl, -⟩ | ⟨rfl, -⟩ | ⟨rfl, -⟩ | ⟨rfl, -⟩ | ⟨hlo, hhi, hal, hp, -⟩
  case inl => exact herr
  case inr.inr.inr.inr.inr.inr => exact absurd (hpal hlo (by omega) hal) hp
  all_goals omega

/-- A write to CMD of a code other than 0x01 answers ERR (R202). -/
theorem State.hostStore_cmd_other (hcode : v.extractLsb' 0 8 ≠ 0x01) :
    s.hostStore 0x018 v = (Resp.error, s) := by
  rcases s.command_cases (v.extractLsb' 0 8) with ⟨hdone, -, -⟩ | ⟨-, herr⟩
  · exact absurd hdone hcode
  · exact (s.hostStore_cmd v).trans herr

/-- HOST_WRITE adds to the write itself the record of the transaction (R77). -/
theorem exec_hostWrite_of_hostStore (addr : HostAddr) {r : Resp} {t : State}
    (h : s.hostStore addr.toNat v = (r, t)) : exec (.hostWrite addr v) s = .next { t with
      history := t.history ++ [.host (hostReq 1 addr v) r] } := by
  rw [exec, execHostWrite, h, completeHost_eq]

/-- A word of code 0x01 is the data of a CMD_RANGE_DONE with the word's ignored bits (R104). -/
theorem eq_rangeDoneData (hcode : v.extractLsb' 0 8 = 0x01#8) :
    v = rangeDoneData (v.extractLsb' 8 24) := by
  calc v = v.extractLsb' 0 32 := BitVec.extractLsb'_eq_self.symm
    _ = v.extractLsb' 8 24 ++ v.extractLsb' 0 8 :=
      (BitVec.extractLsb'_append_extractLsb'_eq_extractLsb' (len₁ := 8) (len₂ := 24) rfl).symm
    _ = rangeDoneData (v.extractLsb' 8 24) := by rw [hcode]; rfl

end

/-- Settles O47: the four registers, the command, PALETTE, and the addresses that answer ERR. -/
theorem hostWriteEffect : Obligations.HostWriteEffect := by
  refine fun s v => ⟨exec_hostWrite_of_hostStore s v 0x00004 rfl,
    exec_hostWrite_of_hostStore s v 0x00008 rfl, exec_hostWrite_of_hostStore s v 0x0000C rfl,
    exec_hostWrite_of_hostStore s v 0x0001C rfl, fun hcode => ?command,
    fun addr hm hp hal hlo hhi => ?palette, fun addr h => ?errors⟩
  case command =>
    conv_lhs => rw [eq_rangeDoneData v hcode]
    exact exec_hostWrite_rangeDoneData _ s
  case palette =>
    refine ⟨s.mem.store addr.toNat (bytesOfHostWord v),
      exec_hostWrite_of_hostStore s v addr (s.hostStore_palette v hp hal hlo hhi),
      fun i hi => ?_, fun a ha => Memory.read_store_outside hm.1 ha, Memory.store_wf hm _ _⟩
    exact (Memory.read_store_inside hm.1 _ hi).trans (bytesOfHostWord_getElem v hi)
  case errors =>
    refine exec_hostWrite_of_hostStore s v addr ?_
    rcases h with hmis | hro | hres | hhigh | ⟨hlo, hhi, hp⟩ | ⟨rfl, hcode⟩
    · exact s.hostStore_error v (by omega) fun _ _ hal => absurd hal hmis
    · simp only [List.mem_cons, List.not_mem_nil, or_false] at hro
      exact s.hostStore_error v (by omega) (by omega)
    · exact s.hostStore_error v (by omega) (by omega)
    · exact s.hostStore_error v (by omega) (by omega)
    · exact s.hostStore_error v (by omega) fun _ _ _ => hp
    · exact s.hostStore_cmd_other v hcode

end Sys2Proof.Machine
end

section
/-! Transactions that answer ERR (R223). -/

namespace Sys2Proof.Machine

@[simp] theorem Resp.ok_err (v : HostWord) : (Resp.ok v).err = false := rfl

section
variable (s : State)

theorem State.hostLoad_eq_of_err {a : Nat} (h : (s.hostLoad a).1.err = true) :
    s.hostLoad a = (Resp.error, s) := by
  by_cases hmis : a % 4 ≠ 0
  · exact s.hostLoad_misaligned hmis
  rw [State.hostLoad, if_neg hmis] at h ⊢
  by_cases hlow : a < 0x01000
  · rw [if_pos hlow] at h ⊢
    cases hreg : s.register a with
    | none => rfl
    | some v => simp [hreg] at h
  · rw [if_neg hlow] at h ⊢
    cases hwin : windows.find? (·.holds a) with
    | none => rfl
    | some w =>
      by_cases hdraw : w.drawPhase = some s.phase <;> simp [hwin, hdraw] at h

theorem State.command_eq_of_err {code : Byte} (h : (s.command code).1.err = true) :
    s.command code = (Resp.error, s) := by
  rcases s.command_cases code with ⟨-, -, hok⟩ | ⟨-, herr⟩
  · simp [hok] at h
  · exact herr

theorem State.hostStore_eq_of_err {a : Nat} {v : HostWord} (h : (s.hostStore a v).1.err = true) :
    s.hostStore a v = (Resp.error, s) := by
  rcases s.hostStore_cases a v with
    herr | ⟨-, hok⟩ | ⟨-, hok⟩ | ⟨-, hok⟩ | ⟨-, hok⟩ | ⟨-, hcmd⟩ | ⟨-, -, -, -, hok⟩
  case inl => exact herr
  case inr.inr.inr.inr.inr.inl => exact hcmd ▸ s.command_eq_of_err (hcmd ▸ h)
  all_goals simp [hok] at h

/-- Every request's effect is its answer with the record of the transaction, and the answer is ERR
only where nothing was done. -/
theorem exec_decodeHost (q : HostReq) : ∃ (req : HostReq) (x : Resp × State),
    exec (decodeHost q) s = .next (completeHost req x) ∧
      (x.1.err = true → x = (Resp.error, s)) := by
  rcases decodeHost_cases q with ⟨-, hd⟩ | ⟨-, hd⟩ | ⟨-, hd⟩ <;> rw [hd]
  · exact ⟨_, s.command 0x01, rfl, s.command_eq_of_err⟩
  · exact ⟨_, s.hostStore _ _, rfl, s.hostStore_eq_of_err⟩
  · exact ⟨_, s.hostLoad _, rfl, s.hostLoad_eq_of_err⟩

end

/-- The record of a transaction is the last event (R77), so it holds the transaction's own answer. -/
theorem completeHost_getLast? (req : HostReq) (x : Resp × State) :
    (completeHost req x).history.getLast? = some (.host req x.1) := by
  rw [completeHost_eq, List.getLast?_concat]

/-- Settles O46: the last event tells which request and answer it was, and ERR leaves the state as
it was. -/
theorem failedTransactionsChangeNothing : Obligations.FailedTransactionsChangeNothing := by
  intro s t q r hexec hlast herr
  obtain ⟨req, x, hnext, hx⟩ := exec_decodeHost s q
  obtain rfl : completeHost req x = t := Host.Outcome.next.inj (hnext.symm.trans hexec)
  rw [completeHost_getLast?] at hlast
  obtain ⟨rfl, rfl⟩ := Event.host.inj (Option.some.inj hlast)
  obtain rfl := hx herr
  exact ⟨rfl, completeHost_eq _ _⟩

end Sys2Proof.Machine
end

section
/-! Reset (R250): what the memory reads as there, window by window. -/

namespace Sys2Proof.Machine

/-! ### What an unlisted address reads as (R60 to R65) -/

theorem Memory.unlisted_above_palette {a : Nat} (h : 0x01300 ≤ a) : Memory.unlisted a = 0 :=
  if_neg fun hin => absurd hin.2 (Nat.not_lt.mpr h)

theorem Memory.unlisted_palette {n : Nat} (hn : n < 768) :
    Memory.unlisted (paletteAddr n) = BitVec.ofNat 8 (n / 3) := by
  have hin : 0x01000 ≤ paletteAddr n ∧ paletteAddr n < 0x01300 := by unfold paletteAddr; omega
  rw [Memory.unlisted, if_pos hin, paletteAddr, Nat.add_sub_cancel_left]

/-! ### What reset leaves in memory: no address is listed -/

theorem State.reset_read (a : Nat) : State.reset.mem.read a = Memory.unlisted a :=
  Memory.read_nil a

theorem State.reset_read_above_palette {a : Nat} (h : 0x01300 ≤ a) :
    State.reset.mem.read a = 0 :=
  (State.reset_read a).trans (Memory.unlisted_above_palette h)

theorem State.reset_cell_above_palette {a : Nat} (h : 0x01300 ≤ a) :
    State.reset.mem.cell a = 0 := by
  rw [Memory.cell, State.reset_read_above_palette h,
    State.reset_read_above_palette (Nat.le_succ_of_le h)]
  rfl

/-- Entry `v` of PALETTE has all three channels equal to `v`: the identity grey ramp (R65). -/
theorem State.reset_read_palette {v c : Nat} (hv : v < 256) (hc : c < 3) :
    State.reset.mem.read (paletteAddr (3 * v + c)) = BitVec.ofNat 8 v := by
  have hentry : (3 * v + c) / 3 = v := by omega
  rw [State.reset_read, Memory.unlisted_palette (by omega), hentry]

/-! ### Where the windows lie (R66) -/

theorem rxpktAddr_ge (i : Nat) : 0x01300 ≤ rxpktAddr i := by unfold rxpktAddr; omega

theorem stagingAddr_ge (p i : Nat) : 0x01300 ≤ stagingAddr p i := by unfold stagingAddr; omega

theorem segstoreAddr_ge (k p i : Nat) : 0x01300 ≤ segstoreAddr k p i := by
  unfold segstoreAddr; omega

theorem cellAddr_ge (base r c : Nat) : base ≤ cellAddr base r c := by unfold cellAddr; omega

/-- Settles O9: the registers by their reset values, PALETTE as the grey ramp, and every other array
as 0, since its window lies above PALETTE's. -/
theorem resetValues : Obligations.ResetValues := by
  have hrxpkt : ∀ i < 164, State.reset.mem.read (rxpktAddr i) = 0 := fun i _ =>
    State.reset_read_above_palette (rxpktAddr_ge i)
  have hstaging : ∀ p < 60, ∀ i < 164, State.reset.mem.read (stagingAddr p i) = 0 := fun p _ i _ =>
    State.reset_read_above_palette (stagingAddr_ge p i)
  have hsegstore : ∀ k < 4, ∀ p < 60, ∀ i < 164, State.reset.mem.read (segstoreAddr k p i) = 0 :=
    fun k _ p _ i _ => State.reset_read_above_palette (segstoreAddr_ge k p i)
  have hframe : ∀ base, 0x01300 ≤ base → ∀ r c, State.reset.mem.cell (cellAddr base r c) = 0 :=
    fun base hb r c => State.reset_cell_above_palette (hb.trans (cellAddr_ge base r c))
  exact ⟨rfl, rfl, rfl, rfl, rfl, rfl, rfl, rfl, rfl, rfl, rfl, rfl, rfl, rfl, rfl,
    hrxpkt, hstaging, hsegstore,
    fun r _ c _ => ⟨hframe tframeBase (by decide) r c, hframe dframeBase (by decide) r c⟩,
    fun _ hv _ hc => State.reset_read_palette hv hc, rfl, rfl, rfl⟩

end Sys2Proof.Machine
end

section
/-! Encodings (R98, R99, R102): every operation's word decodes to it, every request is the word of its
transaction, and a dispatch word decodes by its PHASE and the four bits alone. -/

namespace Sys2Proof.Machine

/-! ### Requests (R102) -/

/-- WR, read from a request made of its fields. -/
theorem hostReq_wr_bit (wr : BitVec 1) (addr : HostAddr) (wdata : HostWord) :
    (hostReq wr addr wdata).getLsbD 52 = wr.getLsbD 0 :=
  hostReq_getLsbD wr addr wdata 52

theorem hostReq_low (wr : BitVec 1) (addr : HostAddr) (wdata : HostWord) :
    (hostReq wr addr wdata).extractLsb' 0 8 = wdata.extractLsb' 0 8 := by
  rw [← reqData_low, reqData_hostReq]

theorem decodeHost_hostRead (addr : HostAddr) (wdata : HostWord) :
    decodeHost (hostReq 0 addr wdata) = .hostRead addr wdata := by
  rw [decodeHost_of_not_wr (hostReq_wr_bit 0 addr wdata), reqAddr_hostReq, reqData_hostReq]

theorem isRangeDoneWrite_iff (addr : HostAddr) (wdata : HostWord) :
    isRangeDoneWrite addr wdata = true ↔ addr = 0x00018 ∧ wdata.extractLsb' 0 8 = 0x01 := by
  simp [isRangeDoneWrite]

theorem wf_hostWrite_iff (addr : HostAddr) (wdata : HostWord) :
    (Instr.hostWrite addr wdata).wf = true ↔
      ¬(addr = 0x00018 ∧ wdata.extractLsb' 0 8 = 0x01) := by
  rw [← isRangeDoneWrite_iff]
  simp [Instr.wf]

theorem decodeHost_hostWrite {addr : HostAddr} {wdata : HostWord}
    (hwf : (Instr.hostWrite addr wdata).wf = true) :
    decodeHost (hostReq 1 addr wdata) = .hostWrite addr wdata := by
  have hother : ¬(reqAddr (hostReq 1 addr wdata) = 0x00018 ∧
      (hostReq 1 addr wdata).extractLsb' 0 8 = 0x01) := by
    rw [reqAddr_hostReq, hostReq_low]
    exact (wf_hostWrite_iff addr wdata).mp hwf
  rw [decodeHost_of_wr (hostReq_wr_bit 1 addr wdata) hother, reqAddr_hostReq, reqData_hostReq]

/-- The ignored bits of a CMD_RANGE_DONE come back from its request (R104). -/
theorem hostReq_rangeDone_high (hi : BitVec 24) :
    (hostReq 1 0x00018 (rangeDoneData hi)).extractLsb' 8 24 = hi := by
  have hdata : (hostReq 1 0x00018 (rangeDoneData hi)).extractLsb' 8 24 =
      (reqData (hostReq 1 0x00018 (rangeDoneData hi))).extractLsb' 8 24 :=
    (BitVec.extractLsb'_extractLsb'_of_le (by decide)).symm
  rw [hdata, reqData_hostReq]
  exact BitVec.extractLsb'_append_eq_left

theorem decodeHost_cmdRangeDone (hi : BitVec 24) :
    decodeHost (hostReq 1 0x00018 (rangeDoneData hi)) = .cmdRangeDone hi := by
  rw [decodeHost_of_rangeDone (hostReq_wr_bit 1 _ _) (reqAddr_hostReq _ _ _)
    ((hostReq_low _ _ _).trans (rangeDoneData_low hi)), hostReq_rangeDone_high]

/-- Settles O4: the eleven match words one by one, and each kind of request by its fields. -/
theorem decodeOfEncode : Obligations.DecodeOfEncode := by
  intro i hwf
  cases i with
  | hostRead addr wdata => exact congrArg Except.ok (decodeHost_hostRead addr wdata)
  | hostWrite addr wdata => exact congrArg Except.ok (decodeHost_hostWrite hwf)
  | cmdRangeDone hi => exact congrArg Except.ok (decodeHost_cmdRangeDone hi)
  | _ => decide

theorem hostReq_of_wr {q : HostReq} (hw : reqWr q = 1) :
    hostReq 1 (reqAddr q) (reqData q) = q := by
  rw [← hw, hostReq_fields]

theorem hostReq_of_not_wr {q : HostReq} (hw : reqWr q ≠ 1) :
    hostReq 0 (reqAddr q) (reqData q) = q := by
  have hzero : ∀ b : BitVec 1, b ≠ 1 → b = 0 := by decide
  rw [← hzero _ hw, hostReq_fields]

/-- The request of a CMD_RANGE_DONE, put together again from its ignored bits. -/
theorem hostReq_of_rangeDone {q : HostReq} (hw : reqWr q = 1) (haddr : reqAddr q = 0x00018)
    (hcode : (reqData q).extractLsb' 0 8 = 0x01) :
    hostReq 1 0x00018 (rangeDoneData (q.extractLsb' 8 24)) = q := by
  have hhigh : (reqData q).extractLsb' 8 24 = q.extractLsb' 8 24 :=
    BitVec.extractLsb'_extractLsb'_of_le (by decide)
  rw [← hhigh, ← eq_rangeDoneData _ hcode, ← haddr, hostReq_of_wr hw]

/-- Settles O5: the row a request decodes by, and its fields put together again. -/
theorem encodeOfDecodedRequest : Obligations.EncodeOfDecodedRequest := by
  intro q
  by_cases hdone : q &&& 0x1FFFFF000000FF = 0x10001800000001
  · obtain ⟨hw, haddr, hcode⟩ := (rangeDone_mask_iff q).mp hdone
    rw [decodeHost, if_pos hdone]
    exact ⟨rfl, congrArg CodeWord.host (hostReq_of_rangeDone hw haddr hcode)⟩
  · rw [decodeHost, if_neg hdone]
    by_cases hw : reqWr q = 1
    · rw [if_pos hw, wf_hostWrite_iff]
      exact ⟨fun h => hdone ((rangeDone_mask_iff q).mpr ⟨hw, h⟩),
        congrArg CodeWord.host (hostReq_of_wr hw)⟩
    · rw [if_neg hw]
      exact ⟨rfl, congrArg CodeWord.host (hostReq_of_not_wr hw)⟩

/-! ### Dispatch words (R99 to R101) -/

/-- A word that decodes matches a row. -/
theorem exists_match_of_decodeDispatch {d : DispatchWord} {i : Instr}
    (h : decodeDispatch d = .ok i) : ∃ r ∈ dispatchTable, d &&& r.mask = r.mtch := by
  unfold decodeDispatch at h
  cases hf : dispatchTable.find? (·.hits d) with
  | none => rw [hf] at h; cases h
  | some r =>
    exact ⟨r, List.mem_of_find?_eq_some hf, by simpa [DispatchRow.hits] using List.find?_some hf⟩

/-- Settles O2: a matched row is the row found, and a row found is matched. -/
theorem decoderFollowsDispatchTable : Obligations.DecoderFollowsDispatchTable := by
  refine fun d => ⟨fun r hr hm => decodeDispatch_of_match hr hm, fun hnone i hi => ?_⟩
  obtain ⟨r, hr, hm⟩ := exists_match_of_decodeDispatch hi
  exact hnone r hr hm

/-- The bits of a dispatch word that some row looks at: PHASE, M, T, V and K (R98, R99). -/
def seenBits (d : DispatchWord) : DispatchWord :=
  0#7 ++ BitVec.ofBool (d.getLsbD 8) ++ 0#1 ++ BitVec.ofBool (d.getLsbD 6)
    ++ BitVec.ofBool (d.getLsbD 5) ++ BitVec.ofBool (d.getLsbD 4) ++ d.extractLsb' 0 4

theorem seenBits_eq_and (d : DispatchWord) : seenBits d = d &&& 0x017F := by
  apply BitVec.eq_of_getLsbD_eq
  intro i hi
  have happend : (seenBits d).getLsbD i = _ := BitVec.getLsbD_append (n := 12) (m := 4)
  simp only [BitVec.getLsbD_append] at happend
  rw [BitVec.getLsbD_and, happend]
  interval_cases i <;> simp

theorem seenBits_and_mask (d : DispatchWord) {r : DispatchRow} (hr : r ∈ dispatchTable) :
    seenBits d &&& r.mask = d &&& r.mask := by
  have hcover : ∀ r ∈ dispatchTable, 0x017F &&& r.mask = r.mask := by decide
  rw [seenBits_eq_and, BitVec.and_assoc, hcover r hr]

theorem seenBits_phase (d : DispatchWord) :
    (seenBits d).extractLsb' 0 4 = d.extractLsb' 0 4 :=
  BitVec.extractLsb'_append_eq_right

/-- The other bits are ignored (R99). -/
theorem decodeDispatch_seenBits (d : DispatchWord) :
    decodeDispatch (seenBits d) = decodeDispatch d := by
  have hfind : dispatchTable.find? (·.hits (seenBits d)) = dispatchTable.find? (·.hits d) :=
    List.find?_congr fun r hr => by rw [DispatchRow.hits, DispatchRow.hits, seenBits_and_mask d hr]
  rw [decodeDispatch, decodeDispatch, hfind, seenBits_phase]

theorem decodeDispatch_eq_selectedBy (d : DispatchWord) : decodeDispatch d =
    selectedBy (d.extractLsb' 0 4) (d.getLsbD 4) (d.getLsbD 5) (d.getLsbD 6) (d.getLsbD 8) := by
  rw [← decodeDispatch_seenBits]
  exact decodeDispatch_assembled _ _ _ _ _

/-- Which PHASE and bits hold, and which are refused (R100, R101). -/
theorem selectedBy_error_iff : ∀ (p : BitVec 4) (m t v k : Bool),
    (selectedBy p m t v k = .error .hold ↔
      (((p = phResyncWait ∨ p = phRecoverWait ∨ p = phPresentWait) ∧ k = false) ∨
        p = phRangeWait)) ∧
    (selectedBy p m t v k = .error .reservedPhase ↔ 9 ≤ p.toNat) := by
  decide +kernel

/-- Settles O3: R101's waits in terms of PHASE and K. -/
theorem holdsAreExactlyTheWaits : Obligations.HoldsAreExactlyTheWaits := by
  intro d
  rw [decodeDispatch_eq_selectedBy]
  exact selectedBy_error_iff _ _ _ _ _

/-- Settles O1: the nine words, decoded one by one. -/
theorem tableWordsDecode : Obligations.TableWordsDecode := by
  refine ⟨?_, ?_, ?_, ?_, ?_, ?_, ?_, ?_, ?_⟩ <;> decide

end Sys2Proof.Machine
end

section
/-! The turns (R76, R80, R101): whose step is next, and what it is. -/

namespace Sys2Proof.Machine

theorem coreTurn_of_decode {s : State} {i : Instr}
    (h : decode (.dispatch s.dispatchWord) = .ok i) : coreTurn s = exec i s := by
  have hd : decodeDispatch s.dispatchWord = .ok i := h
  rw [coreTurn, hd]

theorem coreTurn_of_hold {s : State}
    (h : decode (.dispatch s.dispatchWord) = .error .hold) : coreTurn s = .next s := by
  have hd : decodeDispatch s.dispatchWord = .error .hold := h
  rw [coreTurn, hd]

/-- Settles O12: the popped state has the same dispatch word. -/
theorem stepRunsDecodedOperation : Obligations.StepRunsDecodedOperation := by
  intro s i hp hc hd
  rw [step_of_legalPhase hp, agentTurn_core hc]
  exact coreTurn_of_decode (s := s.popTurn) hd

/-- A word that holds has a legal PHASE: a reserved one is refused by its own name. -/
theorem phase_le_of_hold {s : State} (h : decodeDispatch s.dispatchWord = .error .hold) :
    s.phase.toNat ≤ 8 := by
  by_contra hgt
  rw [decodeDispatch_dispatchWord] at h
  have hreserved := (selectedBy_error_iff s.phase s.bitM s.bitT s.bitV s.bitK).2.mpr (by omega)
  rw [h] at hreserved
  cases hreserved

/-- Settles O14: the CORE's turn passes. -/
theorem coreHoldsWithoutRow : Obligations.CoreHoldsWithoutRow := by
  intro s hc hd
  rw [step_of_legalPhase (phase_le_of_hold hd), agentTurn_core hc]
  exact coreTurn_of_hold (s := s.popTurn) hd

/-- Settles O11: no turn is laid out at reset, so it is CORE's, in ACQ. -/
theorem firstStepReceivesPacket : Obligations.FirstStepReceivesPacket :=
  (CoreCase.pktRecv (s := State.reset) rfl).step_eq (Or.inl rfl)

theorem State.popTurn_of_cons {s : State} {turn : Turn} {rest : List Turn}
    (h : s.turns = turn :: rest) : s.popTurn = { s with turns := rest } := by
  rw [State.popTurn, h]
  rfl

section
variable {s : State} {rest : List Turn}

theorem agentTurn_host {q : HostReq} (h : s.turns = .host q :: rest) :
    agentTurn s = exec (decodeHost q) s.popTurn := by
  rw [agentTurn, h]
  rfl

theorem agentTurn_elapsed (h : s.turns = .elapsed :: rest) :
    agentTurn s = .next s.popTurn.delayTurn := by
  rw [agentTurn, h]
  rfl

theorem agentTurn_returned (h : s.turns = .returned :: rest) :
    agentTurn s = .next s.popTurn.sinkTurn := by
  rw [agentTurn, h]
  rfl

end

/-- Settles O13: every request decodes, and its transaction runs on the popped state. -/
theorem stepRunsDecodedRequest : Obligations.StepRunsDecodedRequest := by
  intro s q rest i hp ht hd
  obtain rfl : decodeHost q = i := Except.ok.inj hd
  rw [step_of_legalPhase hp, agentTurn_host ht, State.popTurn_of_cons ht]

/-! ### The signals (R42) -/

theorem State.delayPending_iff (s : State) : s.delayPending = true ↔
    (s.phase = phResyncWait ∨ s.phase = phRecoverWait) ∧ s.elapsedSig = false := by
  simp [State.delayPending]

theorem State.presentPending_iff (s : State) : s.presentPending = true ↔
    s.phase = phPresentWait ∧ s.returnedSig = false := by
  simp [State.presentPending]

theorem State.delayTurn_of_pending {s : State}
    (hp : s.phase = phResyncWait ∨ s.phase = phRecoverWait) (hs : s.elapsedSig = false) :
    s.delayTurn = { s with elapsedSig := true, history := s.history ++ [.delayElapsed] } :=
  if_pos (s.delayPending_iff.mpr ⟨hp, hs⟩)

theorem State.delayTurn_of_not_pending {s : State}
    (h : (s.phase ≠ phResyncWait ∧ s.phase ≠ phRecoverWait) ∨ s.elapsedSig = true) :
    s.delayTurn = s := by
  refine if_neg (mt s.delayPending_iff.mp ?_)
  rintro ⟨hp, hs⟩
  rcases h with ⟨h2, h3⟩ | h
  · exact hp.elim h2 h3
  · rw [h] at hs; cases hs

theorem State.sinkTurn_of_pending {s : State} (hp : s.phase = phPresentWait)
    (hs : s.returnedSig = false) :
    s.sinkTurn = { s with returnedSig := true, history := s.history ++ [.presentReturned] } :=
  if_pos (s.presentPending_iff.mpr ⟨hp, hs⟩)

theorem State.sinkTurn_of_not_pending {s : State}
    (h : s.phase ≠ phPresentWait ∨ s.returnedSig = true) : s.sinkTurn = s := by
  refine if_neg (mt s.presentPending_iff.mp ?_)
  rintro ⟨hp, hs⟩
  rcases h with h | h
  · exact h hp
  · rw [h] at hs; cases hs

/-- Settles O17: the signal that is due, and the one that is not, of each agent. -/
theorem agentSignals : Obligations.AgentSignals := by
  intro s rest hle
  rw [step_of_legalPhase hle]
  refine ⟨fun ht hp hs => ?_, fun ht h => ?_, fun ht hp hs => ?_, fun ht h => ?_⟩
  · rw [agentTurn_elapsed ht, State.delayTurn_of_pending (s := s.popTurn) hp hs,
      State.popTurn_of_cons ht]
  · rw [agentTurn_elapsed ht, State.delayTurn_of_not_pending (s := s.popTurn) h,
      State.popTurn_of_cons ht]
  · rw [agentTurn_returned ht, State.sinkTurn_of_pending (s := s.popTurn) hp hs,
      State.popTurn_of_cons ht]
  · rw [agentTurn_returned ht, State.sinkTurn_of_not_pending (s := s.popTurn) h,
      State.popTurn_of_cons ht]

end Sys2Proof.Machine
end

section
/-! Single operations: the bytes received (R120), the scale latch (R170), the hand-off (R202), the
model's stops (log 12), and the geometry of a pass (R94). -/

namespace Sys2Proof.Machine

/-- Settles O19: RXPKT is the block `rxBytes`, whose bytes are laid out or free. -/
theorem receivedBytesAreLaidOutOrFree : Obligations.ReceivedBytesAreLaidOutOrFree := by
  intro s hm
  refine ⟨_, execPktRecv_eq s, fun i hi => ?_, rfl, rfl⟩
  have hlen : i < (s.rxBytes 164).length := by rwa [State.rxBytes_length]
  have hbyte := s.rxBytes_getElem? 164 i hi
  rw [List.getElem?_eq_getElem hlen] at hbyte
  rw [← rxpktAddr_add i, Memory.read_store_inside hm.1 _ hlen]
  exact Option.some.inj hbyte

/-- Settles O33: the two cases of SCALE_LATCH; the difference does not wrap. -/
theorem scaleLatchEffect : Obligations.ScaleLatchEffect := by
  refine fun s => ⟨fun hlt => ⟨State.scaleLatch_of_lt hlt, ?_⟩, State.scaleLatch_of_le⟩
  exact BitVec.toNat_sub_of_le hlt.le

/-- In RANGE_WAIT, CMD_RANGE_DONE is the scale latch and the way to COLORIZE (R175, R202). -/
theorem exec_cmdRangeDone_of_rangeWait {s : State} (hp : s.phase = phRangeWait) (hi : BitVec 24) :
    exec (.cmdRangeDone hi) s = .next
      (completeHost (hostReq 1 0x00018 (rangeDoneData hi))
        (Resp.ok 0, s.scaleLatch.goto phColorize)) := by
  rw [exec, execCmdRangeDone, State.command, if_pos ⟨rfl, hp⟩]

/-- In any other phase it answers ERR. -/
theorem exec_cmdRangeDone_of_ne {s : State} (hp : s.phase ≠ phRangeWait) (hi : BitVec 24) :
    exec (.cmdRangeDone hi) s = .next
      (completeHost (hostReq 1 0x00018 (rangeDoneData hi)) (Resp.error, s)) := by
  rw [exec, execCmdRangeDone, State.command, if_neg fun h => hp h.2]

/-- Settles O48: the two cases of the scale latch in RANGE_WAIT, and the refusal elsewhere. -/
theorem cmdRangeDoneEffect : Obligations.CmdRangeDoneEffect := by
  rintro s hi req rfl
  refine ⟨fun hp hlt => ?_, fun hp hle => ?_, exec_cmdRangeDone_of_ne (hi := hi)⟩
  · rw [exec_cmdRangeDone_of_rangeWait hp, State.scaleLatch_of_lt hlt]
    rfl
  · rw [exec_cmdRangeDone_of_rangeWait hp, State.scaleLatch_of_le hle, completeHost_eq,
      State.goto_history, List.append_assoc]
    rfl

/-- Settles O49: each operation's guard. -/
theorem operationsStopOutsideTheirRanges : Obligations.OperationsStopOutsideTheirRanges :=
  fun s => ⟨fun hj => if_pos hj, fun hg => if_neg (mt (segidValid_iff s.stagedSegid).mp hg),
    fun hspan => if_pos hspan⟩

/-- Settles O31: packet p of segment s fills half a row, and k runs through that half. -/
theorem geometryIsOneToOne : Obligations.GeometryIsOneToOne := by
  unfold Obligations.GeometryIsOneToOne rowOf colOf
  constructor
  · intros; omega
  · intros; omega

end Sys2Proof.Machine
end

section
/-! Host reads (R71, R73, R200) beyond their effect: no side effect, the form of a draw, and the values
right after reset. -/

namespace Sys2Proof.Machine

/-- Settles O42: a read leaves the state as it was or counts four draws. -/
theorem hostReadHasNoSideEffect : Obligations.HostReadHasNoSideEffect := by
  intro s addr wdata
  obtain ⟨n, hn⟩ : ∃ n, (s.hostLoad addr.toNat).2 = { s with draws := s.draws + n } := by
    rcases s.hostLoad_state addr.toNat with h | h
    · exact ⟨0, h⟩
    · exact ⟨4, h⟩
  have hload : s.hostLoad addr.toNat =
      ((s.hostLoad addr.toNat).1, { s with draws := s.draws + n }) := Prod.ext rfl hn
  exact ⟨_, n, exec_hostRead_of_hostLoad s wdata hload⟩

theorem State.drawnWord_byte (s : State) {i : Nat} (hi : i < 4) :
    s.drawnWord.extractLsb' (8 * i) 8 = Config.freeByte (s.draws + i) :=
  hostWordOf_byte (fun i => Config.freeByte (s.draws + i)) hi

/-- Settles O44: a window in its writing phase answers the drawn word. -/
theorem drawnReadsAreFreeBytes : Obligations.DrawnReadsAreFreeBytes := by
  intro s addr wdata ⟨base, size, drawPhase⟩ hw hal hlo hhi hp
  have hmem : ⟨base, size, some drawPhase⟩ ∈ windows := by
    simp only [List.mem_cons, List.not_mem_nil, or_false, Prod.mk.injEq] at hw
    rcases hw with ⟨rfl, rfl, rfl⟩ | ⟨rfl, rfl, rfl⟩ | ⟨rfl, rfl, rfl⟩ | ⟨rfl, rfl, rfl⟩ |
      ⟨rfl, rfl, rfl⟩ <;> decide
  have hload := s.hostLoad_window hmem ((Window.holds_iff _ _).mpr ⟨hlo, hhi⟩) hal
  exact ⟨s.drawnWord, fun _ => s.drawnWord_byte, exec_hostRead_of_hostLoad s wdata
    (hload.trans (if_pos (congrArg some hp.symm)))⟩

/-- A word of PALETTE is never drawn (R73). -/
theorem State.hostLoad_palette (s : State) {a : Nat} (hal : a % 4 = 0) (hlo : 0x01000 ≤ a)
    (hhi : a < 0x01300) : s.hostLoad a = (Resp.ok (s.mem.hostWord a), s) :=
  s.hostLoad_window (w := ⟨0x01000, 768, none⟩) (by decide)
    ((Window.holds_iff _ _).mpr ⟨hlo, hhi⟩) hal

theorem exec_hostRead_reset {addr : HostAddr} {v : HostWord}
    (h : State.reset.hostLoad addr.toNat = (Resp.ok v, State.reset)) :
    exec (.hostRead addr 0) State.reset = .next { State.reset with
      history := [.host (hostReq 0 addr 0) { rdata := v, err := false }] } :=
  exec_hostRead_of_hostLoad State.reset 0 h

/-- Settles O45: the eleven registers, then two words of PALETTE. -/
theorem registerReadsAtReset : Obligations.RegisterReadsAtReset := by
  simp only [Obligations.RegisterReadsAtReset, List.forall_mem_cons]
  refine ⟨?_, ?_, ?_, ?_, ?_, ?_, ?_, ?_, ?_, ?_, ?_, ?first, ?last, by simp⟩
  case first =>
    exact exec_hostRead_reset (State.reset.hostLoad_palette (by decide) (by decide) (by decide))
  case last =>
    exact exec_hostRead_reset (State.reset.hostLoad_palette (by decide) (by decide) (by decide))
  all_goals
    exact exec_hostRead_reset (State.reset.hostLoad_register (by decide) (by decide) rfl)

end Sys2Proof.Machine
end

section
/-! Normalisation (R172): the error of the two roundings, and what it leaves of the range. -/

namespace Sys2Proof.Machine

/-! ### The relative error of fl64 (R171) -/

/-- The unit in the last place is at most 2^-52 of the number. -/
theorem ulp_le {q : Rat} (hq : q ≠ 0) : ulp q ≤ |q| / 2 ^ 52 := by
  obtain ⟨hlow, -⟩ := floorLog2_spec (abs_pos.mpr hq)
  rw [ulp, magnitude_eq, pow2_eq, zpow_sub₀ (by norm_num)]
  exact div_le_div_of_nonneg_right hlow (by positivity)

theorem fl64_of_pos {q : Rat} (hq : 0 < q) :
    fl64 q = (roundHalfEven (q / ulp q) : Rat) * ulp q := by
  rw [fl64_of_ne_zero hq.ne', if_pos hq.le, one_mul, abs_of_pos hq]

theorem fl64_error_of_nonneg {q : Rat} (hq : 0 ≤ q) : |fl64 q - q| ≤ q / 2 ^ 53 := by
  rcases hq.eq_or_lt with rfl | hpos
  · simp [fl64_zero]
  have hulp : 0 < ulp q := pow2_pos _
  have hle : ulp q ≤ q / 2 ^ 52 := (ulp_le hpos.ne').trans_eq (by rw [abs_of_pos hpos])
  have hfactor : fl64 q - q = ((roundHalfEven (q / ulp q) : Rat) - q / ulp q) * ulp q := by
    rw [fl64_of_pos hpos, sub_mul, div_mul_cancel₀ q hulp.ne']
  calc |fl64 q - q| = |(roundHalfEven (q / ulp q) : Rat) - q / ulp q| * ulp q := by
        rw [hfactor, abs_mul, abs_of_pos hulp]
    _ ≤ 1 / 2 * (q / 2 ^ 52) := mul_le_mul (roundHalfEven_spec _).1 hle hulp.le (by norm_num)
    _ = q / 2 ^ 53 := by ring

theorem fl64_nonneg {q : Rat} (hq : 0 ≤ q) : 0 ≤ fl64 q := by
  have herror := (abs_le.mp (fl64_error_of_nonneg hq)).1
  have hsmall : q / 2 ^ 53 ≤ q := div_le_self hq (by norm_num)
  linarith

theorem fl64_le {q : Rat} (hq : 0 ≤ q) : fl64 q ≤ q * (1 + 1 / 2 ^ 53) := by
  have herror := (abs_le.mp (fl64_error_of_nonneg hq)).2
  calc fl64 q ≤ q + q / 2 ^ 53 := by linarith
    _ = q * (1 + 1 / 2 ^ 53) := by ring

/-! ### A sample inside the latched range (R172) -/

theorem scaleOf_nonneg (span : BitVec 16) : 0 ≤ scaleOf span := fl64_nonneg (by positivity)

/-- At most the whole span, scaled, exceeds 255 by one rounding. -/
theorem mul_scaleOf_le {span : BitVec 16} (hspan : span ≠ 0) {d : Rat} (hd : d ≤ span.toNat) :
    d * scaleOf span ≤ 255 * (1 + 1 / 2 ^ 53) := by
  have hpos : (0 : Rat) < span.toNat := by
    exact_mod_cast Nat.pos_of_ne_zero fun h => hspan (BitVec.eq_of_toNat_eq h)
  calc d * scaleOf span ≤ span.toNat * scaleOf span :=
        mul_le_mul_of_nonneg_right hd (scaleOf_nonneg span)
    _ ≤ span.toNat * (255 / span.toNat * (1 + 1 / 2 ^ 53)) :=
        mul_le_mul_of_nonneg_left (fl64_le (by positivity)) hpos.le
    _ = 255 * (1 + 1 / 2 ^ 53) := by rw [← mul_assoc, mul_div_cancel₀ _ hpos.ne']

/-- The second rounding leaves the product below 255 and a half. -/
theorem fl64_mul_scaleOf_lt {span : BitVec 16} (hspan : span ≠ 0) {d : Rat} (hd0 : 0 ≤ d)
    (hd : d ≤ span.toNat) : fl64 (d * scaleOf span) < 255 + 1 / 2 := by
  calc fl64 (d * scaleOf span) ≤ d * scaleOf span * (1 + 1 / 2 ^ 53) :=
        fl64_le (mul_nonneg hd0 (scaleOf_nonneg span))
    _ ≤ 255 * (1 + 1 / 2 ^ 53) * (1 + 1 / 2 ^ 53) :=
        mul_le_mul_of_nonneg_right (mul_scaleOf_le hspan hd) (by norm_num)
    _ < 255 + 1 / 2 := by norm_num

theorem roundHalfAway_nonneg {p : Rat} (hp : 0 ≤ p) : 0 ≤ roundHalfAway p := by
  rw [roundHalfAway_of_nonneg hp]
  exact Rat.le_floor_iff.mpr (by push_cast; linarith)

theorem roundHalfAway_le {p : Rat} (hp : 0 ≤ p) {n : Int} (hn : p < n + 1 / 2) :
    roundHalfAway p ≤ n := by
  rw [roundHalfAway_of_nonneg hp]
  exact Int.lt_add_one_iff.mp (Rat.floor_lt_iff.mpr (by push_cast; linarith))

/-- Settles O36: two roundings of at most half a unit in the last place each stay below 255 and a half. -/
theorem normOfSampleInRangeIsByte : Obligations.NormOfSampleInRangeIsByte := by
  intro minL span raw hspan hlow hhigh
  have hd0 : (0 : Rat) ≤ ((raw.toNat : Int) - (minL.toNat : Int) : Int) := by
    exact_mod_cast (by omega : (0 : Int) ≤ (raw.toNat : Int) - (minL.toNat : Int))
  have hd : (((raw.toNat : Int) - (minL.toNat : Int) : Int) : Rat) ≤ span.toNat := by
    exact_mod_cast (by omega : (raw.toNat : Int) - (minL.toNat : Int) ≤ (span.toNat : Int))
  have hnonneg := fl64_nonneg (mul_nonneg hd0 (scaleOf_nonneg span))
  exact ⟨roundHalfAway_nonneg hnonneg,
    roundHalfAway_le (n := 255) hnonneg (by exact_mod_cast fl64_mul_scaleOf_lt hspan hd0 hd)⟩

/-- Settles O34: the vectors of the spec's table, computed. -/
theorem normalisationVectors : Obligations.NormalisationVectors := by
  unfold Obligations.NormalisationVectors
  decide +kernel

end Sys2Proof.Machine
end

section
/-! The identity palette (R65, R179): every entry is grey, so that a colour shows its value's top bits. -/

namespace Sys2Proof.Machine

/-- A palette whose three channels agree on v packs that byte three times. -/
theorem colorOfNorm_of_grey {m : Memory} {v : Int} {b : Byte}
    (h : ∀ c < 3, paletteByte m v c = b) : colorOfNorm m v = pack565 b b b := by
  rw [colorOfNorm, h 0 (by decide), h 1 (by decide), h 2 (by decide)]

section
variable {m : Memory}
  (hpal : ∀ v < 256, ∀ c < 3, m.read (paletteAddr (3 * v + c)) = BitVec.ofNat 8 v)
include hpal

theorem colorOfNorm_identity_byte {v : Nat} (hv : v < 256) :
    colorOfNorm m v = pack565 (BitVec.ofNat 8 v) (BitVec.ofNat 8 v) (BitVec.ofNat 8 v) := by
  refine colorOfNorm_of_grey fun c hc => ?_
  obtain ⟨-, -, hbyte, -, -⟩ := paletteLookupClamps m v c hc
  exact (hbyte (by omega) (by omega)).trans (hpal v hv c hc)

/-- Above 255 every channel reads PALETTE[767], the last byte of entry 255. -/
theorem colorOfNorm_identity_high {v : Int} (hv : 256 ≤ v) : colorOfNorm m v = 0xFFFF := by
  refine (colorOfNorm_of_grey (b := 0xFF) fun c hc => ?_).trans (by decide)
  obtain ⟨-, -, -, hhigh, -⟩ := paletteLookupClamps m v c hc
  exact (hhigh hv).trans (hpal 255 (by decide) 2 (by decide))

/-- Below 0 every channel reads PALETTE[0], the first byte of entry 0. -/
theorem colorOfNorm_identity_low {v : Int} (hv : v < 0) : colorOfNorm m v = 0x0000 := by
  refine (colorOfNorm_of_grey (b := 0x00) fun c hc => ?_).trans (by decide)
  obtain ⟨-, -, -, -, hlow⟩ := paletteLookupClamps m v c hc
  exact (hlow (by omega)).trans (hpal 0 (by decide) 0 (by decide))

end

/-- Settles O39: the three ranges of v. -/
theorem identityPaletteColour : Obligations.IdentityPaletteColour := by
  refine fun m hpal => ⟨fun v hv => ?_, fun v => colorOfNorm_identity_high hpal,
    fun v => colorOfNorm_identity_low hpal⟩
  rw [colorOfNorm_identity_byte hpal hv]
  exact packedColourFields _ _ _

end Sys2Proof.Machine
end

section
/-! What a step does, said once with the whole next state: the CORE's operations, the host's
transactions and the signals. Every safety rule below is a case analysis on it. -/

namespace Sys2Proof.Machine

/-! ### The CORE's operations -/

/-- The state of COMPOSITE after a pass with the outcome `d` and the one record of its drops, before
the way on (R150). -/
@[simps] def State.afterPass (s : State) (d : PassData) : State := { s with
  mem := d.mem
  zeroCnt := d.zeroCnt
  evt := if d.dropped then evSampleSentinel else s.evt
  history := s.history ++ if d.dropped then [.errEvent evSampleSentinel] else [] }

theorem State.recordEvent_of_dropped (s : State) (d : PassData) :
    (if d.dropped then State.recordEvent { s with mem := d.mem, zeroCnt := d.zeroCnt } evSampleSentinel
      else { s with mem := d.mem, zeroCnt := d.zeroCnt }) = s.afterPass d := by
  unfold State.afterPass
  cases d.dropped <;> simp [State.recordEvent]

theorem execComposite_eq_afterPass (s : State) : execComposite s =
    .next (if s.autoRange then (s.afterPass s.pass).goto phRangeWait
      else (s.afterPass s.pass).scaleLatch.goto phColorize) := by
  rw [← State.recordEvent_of_dropped]
  rfl

/-- The next state of a CORE operation, under the condition that selects it (R99). -/
inductive CoreEffect (s : State) : State → Prop where
  | pktRecv (hp : s.phase = phAcq) : CoreEffect s { s with
      mem := s.mem.store (rxpktAddr 0) (s.rxBytes 164)
      phase := phCheck
      history := s.history ++ .csAssert :: (s.rxBytes 164).map (fun b => .xfer 0x00 b)
        ++ [.csDeassert]
      rxIn := s.rxIn.drop 164
      draws := s.draws + (164 - s.rxIn.length) }
  | pktAccept (hp : s.phase = phCheck) (hm : s.bitM = true) (hj : s.j.toNat ≤ 59) :
      CoreEffect s { s with
        mem := s.mem.store (stagingAddr s.j.toNat 0) (s.mem.load (rxpktAddr 0) 164)
        resyncCnt := if s.params.clearPolicy = .onAccept then 0 else s.resyncCnt
        j := if s.j = 59 then 0 else s.j + 1
        phase := if s.j = 59 then phSegCheck else phAcq }
  | pktMismatch (hp : s.phase = phCheck) (hm : s.bitM = false) : CoreEffect s { s with
      j := 0
      resyncCnt := s.resyncCnt + 1
      evt := 1
      history := s.history ++ [.errEvent 1, .delayReq s.params.resyncDelayUs]
      phase := phResyncWait }
  | resyncResume (hp : s.phase = phResyncWait) (hk : s.bitK = true) (ht : s.bitT = false) :
      CoreEffect s { s with elapsedSig := false, phase := phAcq }
  | busRecoverBegin (hp : s.phase = phResyncWait) (hk : s.bitK = true) (ht : s.bitT = true) :
      CoreEffect s { s with
        elapsedSig := false
        tpEn := false
        wrongsegCnt := 0
        zeroCnt := 0
        evt := 2
        history := s.history ++ [.tpDisable, .errEvent 2, .delayReq 750000]
        phase := phRecoverWait }
  | busRecoverEnd (hp : s.phase = phRecoverWait) (hk : s.bitK = true) : CoreEffect s { s with
      elapsedSig := false
      tpEn := true
      resyncCnt := 0
      history := s.history ++ [.tpEnable]
      phase := phAcq }
  | segReject (hp : s.phase = phSegCheck) (hv : s.bitV = false) : CoreEffect s { s with
      wrongsegCnt := s.wrongsegCnt + 1
      evt := 3
      history := s.history ++ [.errEvent 3]
      phase := phAcq }
  | segCommit (hp : s.phase = phSegCheck) (hv : s.bitV = true) : CoreEffect s { s with
      mem := s.mem.store (segstoreAddr (s.stagedSegid.toNat - 1) 0 0)
        (s.mem.load (stagingAddr 0 0) 9840)
      wrongsegCnt := 0
      lastSegid := BitVec.ofNat 3 s.stagedSegid.toNat
      phase := if s.stagedSegid.toNat = 4 then phComposite else phAcq }
  | compositeAuto (hp : s.phase = phComposite) (ha : s.autoRange = true) :
      CoreEffect s ((s.afterPass s.pass).goto phRangeWait)
  | compositeLatch (hp : s.phase = phComposite) (ha : s.autoRange = false) :
      CoreEffect s ((s.afterPass s.pass).scaleLatch.goto phColorize)
  | colorize (hp : s.phase = phColorize) : CoreEffect s { s with
      mem := s.mem.store dframeBase (bytesOfCells s.colored)
      history := s.history ++ [.presentReq (s.descriptor s.colored)]
      phase := phPresentWait }
  | presentDone (hp : s.phase = phPresentWait) (hk : s.bitK = true) :
      CoreEffect s { s with returnedSig := false, phase := phAcq }

theorem coreEffect_composite {s : State} (hp : s.phase = phComposite) :
    ∃ t, exec .composite s = .next t ∧ CoreEffect s t := by
  refine ⟨_, execComposite_eq_afterPass s, ?_⟩
  cases ha : s.autoRange with
  | true => exact .compositeAuto hp ha
  | false => exact .compositeLatch hp ha

theorem State.bitV_iff (s : State) :
    s.bitV = true ↔ 1 ≤ s.stagedSegid.toNat ∧ s.stagedSegid.toNat ≤ 4 :=
  segidValid_iff s.stagedSegid

/-- A selected operation answers its next state, with J and SCALE_SPAN where R22 and R30 keep them;
SEG_COMMIT is selected only with a buffer to fill. -/
theorem CoreCase.exec_next {s : State} {i : Instr} (hi : CoreCase s i)
    (hj : i = .pktAccept → s.j.toNat ≤ 59) (hspan : i = .colorize → s.scaleSpan ≠ 0) :
    ∃ t, exec i s = .next t ∧ CoreEffect s t := by
  cases hi with
  | pktRecv hp => exact ⟨_, execPktRecv_eq s, .pktRecv hp⟩
  | pktAccept hp hm => exact ⟨_, execPktAccept_eq (hj rfl), .pktAccept hp hm (hj rfl)⟩
  | pktMismatch hp hm => exact ⟨_, pktMismatchEffect.2 s, .pktMismatch hp hm⟩
  | resyncResume hp hk ht => exact ⟨_, rfl, .resyncResume hp hk ht⟩
  | busRecoverBegin hp hk ht => exact ⟨_, busRecoverBeginEffect.2 s, .busRecoverBegin hp hk ht⟩
  | busRecoverEnd hp hk => exact ⟨_, rfl, .busRecoverEnd hp hk⟩
  | segReject hp hv => exact ⟨_, rfl, .segReject hp hv⟩
  | segCommit hp hv =>
    obtain ⟨h1, h4⟩ := s.bitV_iff.mp hv
    exact ⟨_, execSegCommit_eq h1 h4 rfl, .segCommit hp hv⟩
  | composite hp => exact coreEffect_composite hp
  | colorize hp => exact ⟨_, execColorize_eq (hspan rfl), .colorize hp⟩
  | presentDone hp hk => exact ⟨_, rfl, .presentDone hp hk⟩

/-- A next state is the one of `CoreEffect`: outside the ranges the operation stops (log 12). -/
theorem CoreCase.effect {s t : State} {i : Instr} (hi : CoreCase s i) (h : exec i s = .next t) :
    CoreEffect s t := by
  obtain ⟨hslot, -, hzero⟩ := operationsStopOutsideTheirRanges s
  have hj : i = .pktAccept → s.j.toNat ≤ 59 := by
    rintro rfl
    by_contra hj
    rw [hslot (by omega)] at h
    cases h
  have hspan : i = .colorize → s.scaleSpan ≠ 0 := by
    rintro rfl hspan
    rw [hzero hspan] at h
    cases h
  obtain ⟨t', ht', heffect⟩ := hi.exec_next hj hspan
  obtain rfl := Host.Outcome.next.inj (ht'.symm.trans h)
  exact heffect

/-! ### The host's transactions -/

/-- What the transaction of request `q` makes of the state before the transaction is recorded (R200 to
R202). A refused transaction draws nothing. -/
inductive HostEffect (s : State) (q : HostReq) : State → Prop where
  | draws (n : Nat) : HostEffect s q { s with draws := s.draws + n }
  | rangeCtrl (hw : reqWr q = 1) (haddr : reqAddr q = 0x00004) :
      HostEffect s q { s with rangeCtrl := (reqData q).extractLsb' 0 2 }
  | rangeMin (hw : reqWr q = 1) (haddr : reqAddr q = 0x00008) :
      HostEffect s q { s with rangeMin := (reqData q).extractLsb' 0 16 }
  | rangeMax (hw : reqWr q = 1) (haddr : reqAddr q = 0x0000C) :
      HostEffect s q { s with rangeMax := (reqData q).extractLsb' 0 16 }
  | presOrigin (hw : reqWr q = 1) (haddr : reqAddr q = 0x0001C) :
      HostEffect s q { s with presOrigin := reqData q }
  | rangeDone (hw : reqWr q = 1) (haddr : reqAddr q = 0x00018)
      (hcode : (reqData q).extractLsb' 0 8 = 0x01) (hp : s.phase = phRangeWait) :
      HostEffect s q (s.scaleLatch.goto phColorize)
  | palette (hw : reqWr q = 1) (hp : s.phase ≠ phColorize) (hlo : 0x01000 ≤ (reqAddr q).toNat)
      (hhi : (reqAddr q).toNat ≤ 0x012FC) :
      HostEffect s q { s with mem := s.mem.store (reqAddr q).toNat (bytesOfHostWord (reqData q)) }

theorem State.hostLoad_effect (s : State) (q : HostReq) (a : Nat) :
    HostEffect s q (s.hostLoad a).2 := by
  rcases s.hostLoad_state a with h | h <;> rw [h]
  · exact .draws 0
  · exact .draws 4

theorem State.command_effect {s : State} {q : HostReq} (hw : reqWr q = 1)
    (haddr : reqAddr q = 0x00018) :
    HostEffect s q (s.command ((reqData q).extractLsb' 0 8)).2 := by
  rcases s.command_cases ((reqData q).extractLsb' 0 8) with ⟨hcode, hp, h⟩ | ⟨-, h⟩ <;> rw [h]
  · exact .rangeDone hw haddr hcode hp
  · exact .draws 0

theorem State.hostStore_effect {s : State} {q : HostReq} (hw : reqWr q = 1) :
    HostEffect s q (s.hostStore (reqAddr q).toNat (reqData q)).2 := by
  rcases s.hostStore_cases (reqAddr q).toNat (reqData q) with
    h | ⟨haddr, h⟩ | ⟨haddr, h⟩ | ⟨haddr, h⟩ | ⟨haddr, h⟩ | ⟨haddr, h⟩ | ⟨hlo, hhi, -, hp, h⟩ <;> rw [h]
  · exact .draws 0
  · exact .rangeCtrl hw (BitVec.eq_of_toNat_eq haddr)
  · exact .rangeMin hw (BitVec.eq_of_toNat_eq haddr)
  · exact .rangeMax hw (BitVec.eq_of_toNat_eq haddr)
  · exact .presOrigin hw (BitVec.eq_of_toNat_eq haddr)
  · exact State.command_effect hw (BitVec.eq_of_toNat_eq haddr)
  · exact .palette hw hp hlo hhi

theorem hostEffect_of_exec {s t : State} {q : HostReq} (h : exec (decodeHost q) s = .next t) :
    ∃ (u : State) (req : HostReq) (r : Resp), HostEffect s q u ∧ t = u.emit [.host req r] := by
  rcases decodeHost_cases q with ⟨hmask, hd⟩ | ⟨hw, hd⟩ | ⟨-, hd⟩ <;> rw [hd] at h <;> cases h
  · obtain ⟨hw, haddr, hcode⟩ := (rangeDone_mask_iff q).mp hmask
    exact ⟨_, _, _, hcode ▸ State.command_effect hw haddr, rfl⟩
  · exact ⟨_, _, _, State.hostStore_effect hw, rfl⟩
  · exact ⟨_, _, _, s.hostLoad_effect q _, rfl⟩

/-! ### The step -/

/-- What one step does, whoever's turn it is. -/
inductive StepEffect (s : State) : State → Prop where
  /-- The CORE holds, or a signal is not due (R80, R101). -/
  | idle : StepEffect s s.popTurn
  | core {t : State} (hc : s.coreNext) (h : CoreEffect s.popTurn t) : StepEffect s t
  | host {u : State} (q : HostReq) (hq : s.turns.head? = some (.host q)) (req : HostReq) (r : Resp)
      (h : HostEffect s.popTurn q u) : StepEffect s (u.emit [.host req r])
  | elapsed (hp : s.phase = phResyncWait ∨ s.phase = phRecoverWait) : StepEffect s { s.popTurn with
      elapsedSig := true, history := s.history ++ [.delayElapsed] }
  | returned (hp : s.phase = phPresentWait) : StepEffect s { s.popTurn with
      returnedSig := true, history := s.history ++ [.presentReturned] }

theorem State.delayTurn_effect (s : State) : StepEffect s s.popTurn.delayTurn := by
  by_cases hdue : s.popTurn.delayPending = true
  · obtain ⟨hp, hs⟩ := s.popTurn.delayPending_iff.mp hdue
    rw [State.delayTurn_of_pending hp hs]
    exact .elapsed hp
  · rw [State.delayTurn, if_neg hdue]
    exact .idle

theorem State.sinkTurn_effect (s : State) : StepEffect s s.popTurn.sinkTurn := by
  by_cases hdue : s.popTurn.presentPending = true
  · obtain ⟨hp, hs⟩ := s.popTurn.presentPending_iff.mp hdue
    rw [State.sinkTurn_of_pending hp hs]
    exact .returned hp
  · rw [State.sinkTurn, if_neg hdue]
    exact .idle

/-- The whole effect of a step that answers a next state. -/
theorem step_effect {s t : State} (h : step s = .next t) : StepEffect s t := by
  cases step_cases h with
  | hold _ _ ht => rw [ht]; exact .idle
  | core i hc hsel ht => exact .core hc (CoreCase.effect (coreCase_of_selected (s := s.popTurn) hsel) ht)
  | host q hq ht =>
    obtain ⟨u, req, r, heffect, rfl⟩ := hostEffect_of_exec ht
    exact .host q hq req r heffect
  | delay _ ht => rw [ht]; exact s.delayTurn_effect
  | sink _ ht => rw [ht]; exact s.sinkTurn_effect

end Sys2Proof.Machine
end

section
/-! Who writes which register (R23 to R29, R36, R175, R259): each rule a case analysis on the step's
effect. -/

namespace Sys2Proof.Machine

/-! ### The registers that only the CORE writes -/

/-- The registers that belong to the CORE and to the signals. -/
structure SameCore (s t : State) : Prop where
  j : t.j = s.j
  resyncCnt : t.resyncCnt = s.resyncCnt
  wrongsegCnt : t.wrongsegCnt = s.wrongsegCnt
  zeroCnt : t.zeroCnt = s.zeroCnt
  tpEn : t.tpEn = s.tpEn
  lastSegid : t.lastSegid = s.lastSegid
  elapsedSig : t.elapsedSig = s.elapsedSig
  returnedSig : t.returnedSig = s.returnedSig

theorem HostEffect.sameCore {s u : State} {q : HostReq} (h : HostEffect s q u) : SameCore s u := by
  cases h with
  | rangeDone => constructor <;> simp
  | _ => constructor <;> rfl

/-- A step that changes a counter of the CORE is a step of the CORE. -/
theorem StepEffect.core_or_same {s t : State} (h : StepEffect s t) :
    (s.coreNext ∧ CoreEffect s.popTurn t) ∨
      (t.resyncCnt = s.resyncCnt ∧ t.wrongsegCnt = s.wrongsegCnt ∧ t.zeroCnt = s.zeroCnt) := by
  cases h with
  | core hc h => exact .inl ⟨hc, h⟩
  | host q hq req r h =>
    have hsame := h.sameCore
    exact .inr ⟨hsame.resyncCnt, hsame.wrongsegCnt, hsame.zeroCnt⟩
  | _ => exact .inr ⟨rfl, rfl, rfl⟩

section
variable {s t : State}

theorem CoreEffect.resyncCnt_changes (h : CoreEffect s t) (hne : t.resyncCnt ≠ s.resyncCnt) :
    (s.phase = phCheck ∧ s.mem.read (rxpktAddr 1) ≠ s.j.setWidth 8 ∧
      t.resyncCnt = s.resyncCnt + 1) ∨
    (s.phase = phCheck ∧ s.mem.read (rxpktAddr 1) = s.j.setWidth 8 ∧
      s.params.clearPolicy = .onAccept ∧ t.resyncCnt = 0) ∨
    (s.phase = phRecoverWait ∧ s.bitK = true ∧ t.resyncCnt = 0) := by
  cases h with
  | pktMismatch hp hm => exact .inl ⟨hp, s.bitM_eq_false_iff.mp hm, rfl⟩
  | pktAccept hp hm =>
    by_cases hpolicy : s.params.clearPolicy = .onAccept
    · exact .inr (.inl ⟨hp, s.bitM_iff.mp hm, hpolicy, if_pos hpolicy⟩)
    · exact absurd (if_neg hpolicy) hne
  | busRecoverEnd hp hk => exact .inr (.inr ⟨hp, hk, rfl⟩)
  | compositeAuto | compositeLatch => simp at hne
  | _ => exact absurd rfl hne

theorem CoreEffect.wrongsegCnt_changes (h : CoreEffect s t) (hne : t.wrongsegCnt ≠ s.wrongsegCnt) :
    (s.phase = phSegCheck ∧ s.bitV = false ∧ t.wrongsegCnt = s.wrongsegCnt + 1) ∨
    (s.phase = phSegCheck ∧ s.bitV = true ∧ t.wrongsegCnt = 0) ∨
    (s.phase = phResyncWait ∧ s.bitK = true ∧ s.resyncCnt = 750 ∧ t.wrongsegCnt = 0) := by
  cases h with
  | segReject hp hv => exact .inl ⟨hp, hv, rfl⟩
  | segCommit hp hv => exact .inr (.inl ⟨hp, hv, rfl⟩)
  | busRecoverBegin hp hk ht => exact .inr (.inr ⟨hp, hk, s.bitT_iff.mp ht, rfl⟩)
  | compositeAuto | compositeLatch => simp at hne
  | _ => exact absurd rfl hne

theorem CoreEffect.zeroCnt_changes (h : CoreEffect s t) (hne : t.zeroCnt ≠ s.zeroCnt) :
    s.phase = phComposite ∨
    (s.phase = phResyncWait ∧ s.bitK = true ∧ s.resyncCnt = 750 ∧ t.zeroCnt = 0) := by
  cases h with
  | compositeAuto hp | compositeLatch hp => exact .inl hp
  | busRecoverBegin hp hk ht => exact .inr ⟨hp, hk, s.bitT_iff.mp ht, rfl⟩
  | _ => exact absurd rfl hne

/-! ### The registers that only the host writes -/

/-- The registers the host writes (R27 to R29, R36), and the parameters of R7 and R126 (log 6, log 7). -/
structure SameHost (s t : State) : Prop where
  rangeMin : t.rangeMin = s.rangeMin
  rangeMax : t.rangeMax = s.rangeMax
  rangeCtrl : t.rangeCtrl = s.rangeCtrl
  presOrigin : t.presOrigin = s.presOrigin
  params : t.params = s.params

theorem CoreEffect.sameHost (h : CoreEffect s t) : SameHost s t := by
  cases h with
  | compositeAuto | compositeLatch => constructor <;> simp
  | _ => constructor <;> rfl

theorem HostEffect.sameHost_or_wr {q : HostReq} (h : HostEffect s q t) :
    SameHost s t ∨ reqWr q = 1 := by
  cases h with
  | draws => exact .inl ⟨rfl, rfl, rfl, rfl, rfl⟩
  | rangeCtrl hw | rangeMin hw | rangeMax hw | presOrigin hw | rangeDone hw | palette hw =>
    exact .inr hw

theorem HostEffect.params {q : HostReq} (h : HostEffect s q t) : t.params = s.params := by
  cases h with
  | rangeDone => simp
  | _ => rfl

theorem StepEffect.params (h : StepEffect s t) : t.params = s.params := by
  cases h with
  | core _ h => exact h.sameHost.params
  | host _ _ _ _ h => exact h.params
  | _ => rfl

theorem StepEffect.sameHost_or_wr (h : StepEffect s t) :
    SameHost s t ∨ ∃ q : HostReq, s.turns.head? = some (.host q) ∧ reqWr q = 1 := by
  cases h with
  | core _ h => exact .inl { h.sameHost with }
  | host q hq _ _ h =>
    rcases h.sameHost_or_wr with hsame | hw
    · exact .inl { hsame with }
    · exact .inr ⟨q, hq, hw⟩
  | _ => exact .inl ⟨rfl, rfl, rfl, rfl, rfl⟩

/-! ### PHASE in RANGE_WAIT (R175) -/

theorem CoreEffect.phase_ne_rangeWait (h : CoreEffect s t) : s.phase ≠ phRangeWait := by
  cases h <;> simp [*]

theorem HostEffect.leaves_phase {q : HostReq} (h : HostEffect s q t) (hne : t.phase ≠ s.phase) :
    t.phase = phColorize ∧ reqWr q = 1 ∧ reqAddr q = 0x00018 ∧
      (reqData q).extractLsb' 0 8 = 0x01 := by
  cases h with
  | rangeDone hw haddr hcode => exact ⟨rfl, hw, haddr, hcode⟩
  | _ => exact absurd rfl hne

end

/-- Settles O26: by the CORE's effects; no other agent writes RESYNC_CNT. -/
theorem resyncCountChanges : Obligations.ResyncCountChanges := by
  intro s t hstep hne
  rcases (step_effect hstep).core_or_same with ⟨hc, h⟩ | ⟨hsame, -, -⟩
  · exact ⟨hc, h.resyncCnt_changes hne⟩
  · exact absurd hsame hne

/-- Settles O27: by the CORE's effects; no other agent writes the two counters. -/
theorem diagnosticCountersChange : Obligations.DiagnosticCountersChange := by
  intro s t hstep
  rcases (step_effect hstep).core_or_same with ⟨hc, h⟩ | ⟨-, hwrongseg, hzero⟩
  · exact ⟨fun hne => ⟨hc, h.wrongsegCnt_changes hne⟩, fun hne => ⟨hc, h.zeroCnt_changes hne⟩⟩
  · exact ⟨absurd hwrongseg, absurd hzero⟩

/-- Settles O58: the CORE and the signals keep the registers, and a host read does. -/
theorem hostRegistersChangeOnlyByHostWrite : Obligations.HostRegistersChangeOnlyByHostWrite := by
  intro s t hstep
  refine ⟨(step_effect hstep).params, fun hne => ?_⟩
  rcases (step_effect hstep).sameHost_or_wr with hsame | ⟨q, hq, hw⟩
  · simp [hsame.rangeMin, hsame.rangeMax, hsame.rangeCtrl, hsame.presOrigin] at hne
  · exact ⟨q, hq, (reqWr_eq_one_iff q).mp hw⟩

/-- Settles O56: no CORE operation is selected in RANGE_WAIT, and the one transaction that changes PHASE
is RANGE_DONE's. -/
theorem rangeWaitIsLeftOnlyByRangeDone : Obligations.RangeWaitIsLeftOnlyByRangeDone := by
  intro s t hstep hp hne
  rw [← hp] at hne
  cases step_effect hstep with
  | core _ h => exact absurd hp h.phase_ne_rangeWait
  | host q hq _ _ h =>
    obtain ⟨hphase, hw, haddr, hcode⟩ := h.leaves_phase hne
    exact ⟨hphase, q, hq, (reqWr_eq_one_iff q).mp hw, haddr, (reqData_low q).symm.trans hcode⟩
  | _ => exact absurd rfl hne

/-! ### Transfers (R259) -/

/-- A byte transfer. -/
def Event.isXfer : Event → Bool
  | .xfer _ _ => true
  | _ => false

section
variable {s t : State}

/-- The history goes on from `s` to `t` without a transfer. -/
def NoXfer (s t : State) : Prop :=
  ∃ es : List Event, t.history = s.history ++ es ∧ ∀ e ∈ es, e.isXfer = false

theorem NoXfer.of_eq (h : t.history = s.history) : NoXfer s t := ⟨[], by simp [h], by simp⟩

theorem NoXfer.trans {u : State} (h : NoXfer s t) (h' : NoXfer t u) : NoXfer s u := by
  obtain ⟨es, hes, hno⟩ := h
  obtain ⟨es', hes', hno'⟩ := h'
  refine ⟨es ++ es', by rw [hes', hes, List.append_assoc], fun e he => ?_⟩
  exact (List.mem_append.mp he).elim (hno e) (hno' e)

theorem State.scaleLatch_noXfer (s : State) : NoXfer s s.scaleLatch := by
  rcases s.scaleLatch_cases with ⟨-, h⟩ | ⟨-, h⟩ <;> rw [h]
  · exact .of_eq rfl
  · exact ⟨_, rfl, by simp [Event.isXfer]⟩

theorem State.afterPass_noXfer (s : State) (d : PassData) : NoXfer s (s.afterPass d) := by
  refine ⟨_, rfl, fun e he => ?_⟩
  cases hd : d.dropped <;> simp [hd] at he
  rw [he]
  rfl

theorem CoreEffect.noXfer (h : CoreEffect s t) (hp : s.phase ≠ phAcq) : NoXfer s t := by
  cases h with
  | pktRecv hacq => exact absurd hacq hp
  | pktMismatch | busRecoverBegin | busRecoverEnd | segReject | colorize =>
    exact ⟨_, rfl, by simp [Event.isXfer]⟩
  | pktAccept | resyncResume | segCommit | presentDone => exact .of_eq rfl
  | compositeAuto => exact s.afterPass_noXfer _
  | compositeLatch => exact (s.afterPass_noXfer _).trans (State.scaleLatch_noXfer _)

theorem HostEffect.noXfer {q : HostReq} (h : HostEffect s q t) : NoXfer s t := by
  cases h with
  | rangeDone => exact s.scaleLatch_noXfer
  | _ => exact .of_eq rfl

theorem StepEffect.noXfer (h : StepEffect s t) :
    (s.coreNext ∧ s.phase = phAcq) ∨ NoXfer s t := by
  cases h with
  | core hc h =>
    by_cases hp : s.phase = phAcq
    · exact .inl ⟨hc, hp⟩
    · exact .inr (h.noXfer (s := s.popTurn) hp)
  | @host u q hq req r h =>
    have hrecord : NoXfer u (u.emit [.host req r]) := ⟨_, rfl, by simp [Event.isXfer]⟩
    exact .inr (NoXfer.trans (s := s) h.noXfer hrecord)
  | idle => exact .inr (.of_eq rfl)
  | elapsed | returned => exact .inr ⟨_, rfl, by simp [Event.isXfer]⟩

end

/-- Settles O57: no step but PKT_RECV's adds a transfer to the history. -/
theorem transfersOnlyInAcq : Obligations.TransfersOnlyInAcq := by
  intro s t es tx rx hstep hes hmem
  rcases (step_effect hstep).noXfer with hacq | ⟨es', hes', hno⟩
  · exact hacq
  · obtain rfl : es = es' := List.append_cancel_left (hes.symm.trans hes')
    exact absurd (hno _ hmem) (by simp [Event.isXfer])

end Sys2Proof.Machine
end

section
/-! What a step can do to one byte of memory (R60 to R66): the windows are apart, so that an address tells
which operation wrote there. -/

namespace Sys2Proof.Machine

/-- Why the byte at `a` is after the step what it is. -/
inductive ByteCase (s t : State) (a : Nat) : Prop where
  | same (h : t.mem.read a = s.mem.read a)
  | recv (hc : s.coreNext) (hp : s.phase = phAcq) (hlo : 0x08000 ≤ a) (hhi : a < 0x080A4)
  | accept (hc : s.coreNext) (hp : s.phase = phCheck) (hm : s.bitM = true) (hj : s.j.toNat < 60)
      (hlo : stagingAddr s.j.toNat 0 ≤ a) (hhi : a < stagingAddr s.j.toNat 0 + 164)
      (h : t.mem = s.mem.store (stagingAddr s.j.toNat 0) (s.mem.load (rxpktAddr 0) 164))
  | commit (hc : s.coreNext) (hp : s.phase = phSegCheck) (h1 : 1 ≤ s.stagedSegid.toNat)
      (h4 : s.stagedSegid.toNat ≤ 4) (hlo : segstoreAddr (s.stagedSegid.toNat - 1) 0 0 ≤ a)
      (hhi : a < segstoreAddr (s.stagedSegid.toNat - 1) 0 0 + 9840)
      (h : t.mem = s.mem.store (segstoreAddr (s.stagedSegid.toNat - 1) 0 0)
        (s.mem.load (stagingAddr 0 0) 9840))
  | composite (hc : s.coreNext) (hp : s.phase = phComposite) (hlo : 0x30000 ≤ a) (hhi : a < 0x39600)
      (h : t.mem = s.pass.mem)
  | colorize (hc : s.coreNext) (hp : s.phase = phColorize) (hlo : 0x40000 ≤ a) (hhi : a < 0x49600)
      (h : t.mem = s.mem.store dframeBase (bytesOfCells s.colored))
  | palette (q : HostReq) (hq : s.turns.head? = some (.host q)) (hw : reqWr q = 1)
      (hp : s.phase ≠ phColorize) (hlo : 0x01000 ≤ a) (hhi : a < 0x01300)

/-- A byte after a store is as before, or its address is inside the stored block. -/
theorem Memory.read_store_or {m : Memory} (hm : m.wf) (a x : Nat) (bs : List Byte) :
    (m.store a bs).read x = m.read x ∨ (a ≤ x ∧ x < a + bs.length) := by
  by_cases hx : a ≤ x ∧ x < a + bs.length
  · exact .inr hx
  · exact .inl (Memory.read_store_outside hm.1 (by omega))

theorem step_byte_cases {s t : State} (hm : s.mem.wf) (h : step s = .next t) (a : Nat) :
    ByteCase s t a := by
  cases step_mem_cases h with
  | same h => exact .same (by rw [h])
  | recv hc hp h =>
    rcases Memory.read_store_or hm (rxpktAddr 0) a (s.rxBytes 164) with hsame | ⟨hlo, hhi⟩
    · exact .same (by rw [h, hsame])
    · rw [State.rxBytes_length] at hhi
      exact .recv hc hp hlo hhi
  | accept hc hp hbit hj h =>
    rcases Memory.read_store_or hm (stagingAddr s.j.toNat 0) a (s.mem.load (rxpktAddr 0) 164) with
      hsame | ⟨hlo, hhi⟩
    · exact .same (by rw [h, hsame])
    · rw [Memory.load_length] at hhi
      exact .accept hc hp hbit hj hlo hhi h
  | commit hc hp hv h =>
    obtain ⟨h1, h4⟩ := (segidValid_iff _).mp hv
    rcases Memory.read_store_or hm (segstoreAddr (s.stagedSegid.toNat - 1) 0 0) a
      (s.mem.load (stagingAddr 0 0) 9840) with hsame | ⟨hlo, hhi⟩
    · exact .same (by rw [h, hsame])
    · rw [Memory.load_length] at hhi
      exact .commit hc hp h1 h4 hlo hhi h
  | composite hc hp h =>
    by_cases ha : 0x30000 ≤ a ∧ a < 0x39600
    · exact .composite hc hp ha.1 ha.2 h
    · exact .same (by rw [h]; exact compositePass_outside hm (by omega))
  | colorize hc hp h =>
    rcases Memory.read_store_or hm dframeBase a (bytesOfCells s.colored) with hsame | ⟨hlo, hhi⟩
    · exact .same (by rw [h, hsame])
    · rw [State.colored_bytes_length hm] at hhi
      exact .colorize hc hp hlo hhi h
  | palette q hq hw hp h1 h2 _ h =>
    rcases Memory.read_store_or hm (reqAddr q).toNat a (bytesOfHostWord (reqData q)) with
      hsame | ⟨hlo, hhi⟩
    · exact .same (by rw [h, hsame])
    · have hlen : (bytesOfHostWord (reqData q)).length = 4 := rfl
      exact .palette q hq hw hp (by omega) (by omega)

/-! ### The windows one by one -/

section
variable {s t : State} (hm : s.mem.wf) (h : step s = .next t)
include hm h

/-- A byte of STAGING stays, or PKT_ACCEPT wrote the slot J it is in. -/
theorem step_staging_byte {p i : Nat} (hp : p < 60) (hi : i < 164) :
    t.mem.read (stagingAddr p i) = s.mem.read (stagingAddr p i) ∨
    (s.coreNext ∧ s.phase = phCheck ∧ s.bitM = true ∧ p = s.j.toNat ∧
      t.mem.read (stagingAddr p i) = s.mem.read (rxpktAddr i)) := by
  cases step_byte_cases hm h (stagingAddr p i) with
  | same h => exact .inl h
  | accept hc hphase hbit hj hlo hhi hmem =>
    have hslot : p = s.j.toNat := by unfold stagingAddr at hlo hhi; omega
    refine .inr ⟨hc, hphase, hbit, hslot, ?_⟩
    rw [hmem, ← hslot, ← stagingAddr_add p i, Memory.read_store_load hm _ _ hi, rxpktAddr_add]
  | commit _ _ _ _ hlo hhi => unfold stagingAddr segstoreAddr at hlo hhi; omega
  | recv _ _ hlo hhi | composite _ _ hlo hhi | colorize _ _ hlo hhi | palette _ _ _ _ hlo hhi =>
    unfold stagingAddr at hlo hhi; omega

/-- A buffer of SEGSTORE stays, or SEG_COMMIT copied all of STAGING into it. -/
theorem step_segstore_buffer {k : Nat} (hk : k < 4) :
    (∀ i < 9840, t.mem.read (segstoreAddr k 0 i) = s.mem.read (segstoreAddr k 0 i)) ∨
    (s.coreNext ∧ s.phase = phSegCheck ∧ s.stagedSegid.toNat = k + 1 ∧
      ∀ i < 9840, t.mem.read (segstoreAddr k 0 i) = s.mem.read (stagingAddr 0 i)) := by
  by_cases hsame : ∀ i < 9840, t.mem.read (segstoreAddr k 0 i) = s.mem.read (segstoreAddr k 0 i)
  · exact .inl hsame
  push Not at hsame
  obtain ⟨i, hi, hne⟩ := hsame
  cases step_byte_cases hm h (segstoreAddr k 0 i) with
  | same h => exact absurd h hne
  | commit hc hphase h1 h4 hlo hhi hmem =>
    have hbuffer : s.stagedSegid.toNat = k + 1 := by unfold segstoreAddr at hlo hhi; omega
    rw [hbuffer, Nat.add_sub_cancel] at hmem
    exact .inr ⟨hc, hphase, hbuffer, fun i hi => by rw [hmem]; exact Memory.read_store_load hm _ _ hi⟩
  | accept _ _ _ _ hlo hhi => unfold stagingAddr segstoreAddr at hlo hhi; omega
  | recv _ _ hlo hhi | composite _ _ hlo hhi | colorize _ _ hlo hhi | palette _ _ _ _ hlo hhi =>
    unfold segstoreAddr at hlo hhi; omega

/-- A byte of PALETTE stays, or the host wrote it outside COLORIZE. -/
theorem step_palette_byte {n : Nat} (hn : n < 768) :
    t.mem.read (paletteAddr n) = s.mem.read (paletteAddr n) ∨
    (s.phase ≠ phColorize ∧ ∃ q : HostReq, s.turns.head? = some (.host q) ∧ reqWr q = 1) := by
  cases step_byte_cases hm h (paletteAddr n) with
  | same h => exact .inl h
  | palette q hq hw hp => exact .inr ⟨hp, q, hq, hw⟩
  | accept _ _ _ _ hlo hhi => unfold stagingAddr paletteAddr at hlo hhi; omega
  | commit _ _ _ _ hlo hhi => unfold segstoreAddr paletteAddr at hlo hhi; omega
  | recv _ _ hlo hhi | composite _ _ hlo hhi | colorize _ _ hlo hhi =>
    unfold paletteAddr at hlo hhi; omega

/-- A byte of TFRAME stays, or COMPOSITE made its pass. -/
theorem step_tframe_byte {a : Nat} (hlo : 0x30000 ≤ a) (hhi : a < 0x39600) :
    t.mem.read a = s.mem.read a ∨ (s.coreNext ∧ s.phase = phComposite ∧ t.mem = s.pass.mem) := by
  cases step_byte_cases hm h a with
  | same h => exact .inl h
  | composite hc hp _ _ h => exact .inr ⟨hc, hp, h⟩
  | accept _ _ _ _ hlo hhi => unfold stagingAddr at hlo hhi; omega
  | commit _ _ _ _ hlo hhi => unfold segstoreAddr at hlo hhi; omega
  | recv | colorize | palette => omega

/-- A byte of DFRAME stays, or COLORIZE stored the coloured frame. -/
theorem step_dframe_byte {a : Nat} (hlo : 0x40000 ≤ a) (hhi : a < 0x49600) :
    t.mem.read a = s.mem.read a ∨ (s.coreNext ∧ s.phase = phColorize ∧
      t.mem = s.mem.store dframeBase (bytesOfCells s.colored)) := by
  cases step_byte_cases hm h a with
  | same h => exact .inl h
  | colorize hc hp _ _ h => exact .inr ⟨hc, hp, h⟩
  | accept _ _ _ _ hlo hhi => unfold stagingAddr at hlo hhi; omega
  | commit _ _ _ _ hlo hhi => unfold segstoreAddr at hlo hhi; omega
  | recv | composite | palette => omega

end

/-- Settles O25: by the window of STAGING. -/
theorem stagingChangesOnlyByAccept : Obligations.StagingChangesOnlyByAccept := by
  intro s t p i hm hp hi hstep hne
  obtain ⟨hc, hphase, hbit, hslot, hread⟩ := (step_staging_byte hm hstep hp hi).resolve_left hne
  exact ⟨hc, hphase, s.bitM_iff.mp hbit, hslot, hread⟩

/-- The bytes of packet p lie in their buffer, and in STAGING, from 164p on. -/
theorem segstoreAddr_split (k p i : Nat) : segstoreAddr k p i = segstoreAddr k 0 (164 * p + i) :=
  (segstoreAddr_packet k p i).symm

theorem stagingAddr_split (p i : Nat) : stagingAddr p i = stagingAddr 0 (164 * p + i) :=
  (stagingAddr_packet p i).symm

/-- Settles O30: by the buffer of SEGSTORE. -/
theorem segstoreChangesOnlyByCommit : Obligations.SegstoreChangesOnlyByCommit := by
  intro s t k p i hm hk hp hi hstep hne
  have hinside : 164 * p + i < 9840 := by omega
  rw [segstoreAddr_split] at hne ⊢
  rcases step_segstore_buffer hm hstep hk with hsame | ⟨hc, hphase, hg, hcopy⟩
  · exact absurd (hsame _ hinside) hne
  · exact ⟨hc, hphase, hg, by rw [hcopy _ hinside, ← stagingAddr_split]⟩

/-- Settles O53: by the window of PALETTE. -/
theorem paletteChangesOnlyByHostWrite : Obligations.PaletteChangesOnlyByHostWrite := by
  intro s t n hm hn hstep hne
  obtain ⟨hp, q, hq, hw⟩ := (step_palette_byte hm hstep hn).resolve_left hne
  exact ⟨hp, q, hq, (reqWr_eq_one_iff q).mp hw⟩

/-! ### The cells of the frames (R63, R64, R67) -/

/-- A cell that changes has a byte that changes. -/
theorem Memory.cell_changes {m m' : Memory} {a : Nat} (h : m'.cell a ≠ m.cell a) :
    m'.read a ≠ m.read a ∨ m'.read (a + 1) ≠ m.read (a + 1) := by
  by_contra hsame
  push Not at hsame
  exact h (by rw [Memory.cell, Memory.cell, hsame.1, hsame.2])

theorem cellAddr_bounds (base : Nat) {r c : Nat} (hr : r < 120) (hc : c < 160) :
    base ≤ cellAddr base r c ∧ cellAddr base r c + 1 < base + 38400 := by
  unfold cellAddr
  omega

/-- The payload word that the geometry sends to the cell (r, c) (R94). -/
theorem geometry_inverse {r c : Nat} (hr : r < 120) (hc : c < 160) :
    (r / 30 + 1, 2 * (r % 30) + c / 80) ∈ passOrder ∧
    rowOf (r / 30 + 1) (2 * (r % 30) + c / 80) = r ∧
    colOf (2 * (r % 30) + c / 80) (c % 80) = c := by
  rw [mem_passOrder]
  unfold rowOf colOf
  omega

/-- A cell that the pass changes holds a sample before which, itself included, there is no sentinel
(R153, R154). -/
theorem State.pass_cell_changes {s : State} (hm : s.mem.wf) {r c : Nat} (hr : r < 120) (hc : c < 160)
    (hne : s.pass.mem.cell (cellAddr tframeBase r c) ≠ s.mem.cell (cellAddr tframeBase r c)) :
    s.pass.mem.cell (cellAddr tframeBase r c) ≠ 0 ∧
      s.pass.mem.cell (cellAddr tframeBase r c) =
        storedSample s.mem (r / 30 + 1) (2 * (r % 30) + c / 80) (c % 80) := by
  obtain ⟨hpass, hrow, hcol⟩ := geometry_inverse hr hc
  have hk : c % 80 < 80 := Nat.mod_lt c (by decide)
  have hwritten := State.pass_cell_written hm hpass hk
  have hkept := State.pass_cell_kept hm hpass hk
  rw [hrow, hcol] at hwritten hkept
  by_cases hzero : ∃ l ≤ c % 80, storedSample s.mem (r / 30 + 1) (2 * (r % 30) + c / 80) l = 0
  · exact absurd (hkept hzero) hne
  · push Not at hzero
    have hcell := hwritten hzero
    exact ⟨by rw [hcell]; exact hzero _ le_rfl, hcell⟩

/-- Settles O54: a changed byte shows that it was COMPOSITE's pass, and the geometry is inverted. -/
theorem thermalCellsChangeOnlyToSamples : Obligations.ThermalCellsChangeOnlyToSamples := by
  intro s t r c hm hr hc hstep hne
  obtain ⟨hlo, hhi⟩ : 0x30000 ≤ cellAddr tframeBase r c ∧ cellAddr tframeBase r c + 1 < 0x39600 :=
    cellAddr_bounds tframeBase hr hc
  have hpass : s.coreNext ∧ s.phase = phComposite ∧ t.mem = s.pass.mem := by
    rcases Memory.cell_changes hne with hbyte | hbyte
    · exact (step_tframe_byte hm hstep hlo (by omega)).resolve_left hbyte
    · exact (step_tframe_byte hm hstep (by omega) hhi).resolve_left hbyte
  obtain ⟨hcore, hphase, hmem⟩ := hpass
  rw [hmem] at hne ⊢
  exact ⟨hcore, hphase, State.pass_cell_changes hm hr hc hne⟩

/-- Where TFRAME is 0, COLORIZE leaves the DFRAME cell (R177). -/
theorem State.colored_cell_kept {s : State} (hm : s.mem.wf) {r c : Nat} (hr : r < 120) (hc : c < 160)
    (hzero : s.mem.cell (cellAddr tframeBase r c) = 0) :
    (s.mem.store dframeBase (bytesOfCells s.colored)).cell (cellAddr dframeBase r c) =
      s.mem.cell (cellAddr dframeBase r c) := by
  have hi : 160 * r + c < s.colored.length := by
    rw [State.colored_length hm]
    omega
  exact ((Memory.cell_store_inside hm.1 dframeBase hi).trans (State.colored_getElem hm hi)).trans
    (if_pos hzero)

/-- Settles O55: a changed byte shows that it was COLORIZE, which leaves a cell where TFRAME is 0. -/
theorem displayCellsChangeOnlyByColorize : Obligations.DisplayCellsChangeOnlyByColorize := by
  intro s t r c hm hr hc hstep hne
  obtain ⟨hlo, hhi⟩ : 0x40000 ≤ cellAddr dframeBase r c ∧ cellAddr dframeBase r c + 1 < 0x49600 :=
    cellAddr_bounds dframeBase hr hc
  have hcolor : s.coreNext ∧ s.phase = phColorize ∧
      t.mem = s.mem.store dframeBase (bytesOfCells s.colored) := by
    rcases Memory.cell_changes hne with hbyte | hbyte
    · exact (step_dframe_byte hm hstep hlo (by omega)).resolve_left hbyte
    · exact (step_dframe_byte hm hstep (by omega) hhi).resolve_left hbyte
  obtain ⟨hcore, hphase, hmem⟩ := hcolor
  rw [hmem] at hne
  exact ⟨hcore, hphase, fun hzero => hne (State.colored_cell_kept hm hr hc hzero)⟩

end Sys2Proof.Machine
end

section
/-! The legal states: reset is one, every step keeps them, and none of them stops. The registers' clauses
go by the effect of the step, the memory's by the windows. -/

namespace Sys2Proof.Machine

/-! ### The clauses about registers -/

/-- The clauses of `Legal` that tie the counter, TP_EN and the signals to PHASE. -/
structure PhaseRules (s : State) : Prop where
  resyncFull : s.resyncCnt = 750 → s.phase = phResyncWait ∨ s.phase = phRecoverWait
  resyncRecover : s.phase = phRecoverWait → s.resyncCnt = 750
  tpEnabled : s.tpEn = false ↔ s.phase = phRecoverWait
  elapsedWhere : s.elapsedSig = true → s.phase = phResyncWait ∨ s.phase = phRecoverWait
  returnedWhere : s.returnedSig = true → s.phase = phPresentWait

/-- All clauses of `Legal` about registers, but that PHASE is legal (`step_phase_le`). -/
structure RegisterRules (s : State) : Prop extends PhaseRules s where
  jRange : s.j.toNat ≤ 59
  jZero : s.phase ≠ phAcq → s.phase ≠ phCheck → s.j = 0
  resyncBound : s.resyncCnt.toNat ≤ 750
  spanPositive : s.scaleSpan ≠ 0
  segidRange : s.lastSegid.toNat ≤ 4
  evtRange : s.evt.toNat ≤ 5
  delayPositive : 0 < s.params.resyncDelayUs

theorem Legal.registerRules {s : State} (h : Legal s) : RegisterRules s :=
  { h with }

/-- Outside the three waits for a signal: the transport is on, the counter is not full, and no signal is
pending. -/
structure Running (s : State) : Prop where
  tpOn : s.tpEn = true
  notFull : s.resyncCnt ≠ 750
  noElapsed : s.elapsedSig = false
  noReturned : s.returnedSig = false

theorem Running.phaseRules {s : State} (h : Running s) (hp : s.phase ≠ phRecoverWait) :
    PhaseRules s where
  resyncFull := fun hfull => absurd hfull h.notFull
  resyncRecover := fun hrecover => absurd hrecover hp
  tpEnabled := by
    rw [h.tpOn]
    exact ⟨fun hoff => absurd hoff (by decide), fun hrecover => absurd hrecover hp⟩
  elapsedWhere := by simp [h.noElapsed]
  returnedWhere := by simp [h.noReturned]

theorem PhaseRules.running {s : State} (h : PhaseRules s)
    (hp : s.phase ≠ phResyncWait ∧ s.phase ≠ phRecoverWait ∧ s.phase ≠ phPresentWait) : Running s := by
  obtain ⟨hresync, hrecover, hpresent⟩ := hp
  exact
    { tpOn := eq_true_of_ne_false fun hoff => hrecover (h.tpEnabled.mp hoff)
      notFull := fun hfull => (h.resyncFull hfull).elim hresync hrecover
      noElapsed := eq_false_of_ne_true fun hsig => (h.elapsedWhere hsig).elim hresync hrecover
      noReturned := eq_false_of_ne_true fun hsig => hpresent (h.returnedWhere hsig) }

section
variable {s t : State}

theorem Running.goto (h : Running s) (p : BitVec 4) : Running (s.goto p) := { h with }

theorem Running.afterPass (h : Running s) (d : PassData) : Running (s.afterPass d) := { h with }

theorem Running.scaleLatch (h : Running s) : Running s.scaleLatch where
  tpOn := by simp [h.tpOn]
  notFull := by simpa using h.notFull
  noElapsed := by simp [h.noElapsed]
  noReturned := by simp [h.noReturned]

/-! ### What the CORE's operations make of them -/

/-- PHASE and the registers tied to it, operation by operation: those that begin or end outside the
waits go by `Running`. -/
theorem CoreEffect.phaseRules (h : CoreEffect s t) (hs : PhaseRules s) : PhaseRules t := by
  cases h with
  | pktRecv hp | segReject hp | colorize hp =>
    have hrun := hs.running (by rw [hp]; decide)
    exact Running.phaseRules { hrun with } (by simp)
  | pktAccept hp =>
    have hrun := hs.running (by rw [hp]; decide)
    refine Running.phaseRules { hrun with notFull := ?_ } ?_
    · show (if s.params.clearPolicy = .onAccept then 0 else s.resyncCnt) ≠ 750
      split
      · decide
      · exact hrun.notFull
    · show (if s.j = 59 then phSegCheck else phAcq) ≠ phRecoverWait
      split <;> decide
  | pktMismatch hp =>
    have hrun := hs.running (by rw [hp]; decide)
    exact
      { resyncFull := fun _ => .inl rfl
        resyncRecover := by simp
        tpEnabled := by simp [hrun.tpOn]
        elapsedWhere := fun _ => .inl rfl
        returnedWhere := by simp [hrun.noReturned] }
  | resyncResume hp hk ht =>
    have hon : s.tpEn = true := by simpa [hp] using hs.tpEnabled
    have hnone : s.returnedSig = false := by simpa [hp] using hs.returnedWhere
    exact Running.phaseRules
      { tpOn := hon, notFull := s.bitT_eq_false_iff.mp ht, noElapsed := rfl, noReturned := hnone }
      (by simp)
  | busRecoverBegin hp hk ht =>
    have hnone : s.returnedSig = false := by simpa [hp] using hs.returnedWhere
    exact
      { resyncFull := fun _ => .inr rfl
        resyncRecover := fun _ => s.bitT_iff.mp ht
        tpEnabled := by simp
        elapsedWhere := fun _ => .inr rfl
        returnedWhere := by simp [hnone] }
  | busRecoverEnd hp =>
    have hnone : s.returnedSig = false := by simpa [hp] using hs.returnedWhere
    exact Running.phaseRules
      { tpOn := rfl, notFull := by simp, noElapsed := rfl, noReturned := hnone } (by simp)
  | segCommit hp =>
    have hrun := hs.running (by rw [hp]; decide)
    refine Running.phaseRules { hrun with } ?_
    show (if s.stagedSegid.toNat = 4 then phComposite else phAcq) ≠ phRecoverWait
    split <;> decide
  | compositeAuto hp =>
    have hrun := hs.running (by rw [hp]; decide)
    exact ((hrun.afterPass _).goto _).phaseRules (by simp)
  | compositeLatch hp =>
    have hrun := hs.running (by rw [hp]; decide)
    exact ((hrun.afterPass _).scaleLatch.goto _).phaseRules (by simp)
  | presentDone hp =>
    have hon : s.tpEn = true := by simpa [hp] using hs.tpEnabled
    have hnotFull : s.resyncCnt ≠ 750 := by simpa [hp] using hs.resyncFull
    have hnone : s.elapsedSig = false := by simpa [hp] using hs.elapsedWhere
    exact Running.phaseRules
      { tpOn := hon, notFull := hnotFull, noElapsed := hnone, noReturned := rfl } (by simp)

/-- J is 0, or it counts in ACQ and CHECK (R22). -/
theorem CoreEffect.j_cases (h : CoreEffect s t) (hs : RegisterRules s) :
    t.j = 0 ∨ (t.j.toNat ≤ 59 ∧ (t.phase = phAcq ∨ t.phase = phCheck)) := by
  cases h with
  | pktRecv => exact .inr ⟨hs.jRange, .inr rfl⟩
  | pktAccept =>
    by_cases hlast : s.j = 59
    · exact .inl (if_pos hlast)
    · have hj := hs.jRange
      have hne : s.j.toNat ≠ 59 := fun h => hlast (BitVec.eq_of_toNat_eq h)
      refine .inr ⟨?_, .inl (if_neg hlast)⟩
      show (if s.j = 59 then 0 else s.j + 1).toNat ≤ 59
      rw [if_neg hlast]
      bv_omega
  | pktMismatch => exact .inl rfl
  | resyncResume hp | busRecoverBegin hp | busRecoverEnd hp | segReject hp | segCommit hp
    | colorize hp | presentDone hp =>
    exact .inl (hs.jZero (by rw [hp]; decide) (by rw [hp]; decide))
  | compositeAuto hp | compositeLatch hp =>
    exact .inl (by simpa using hs.jZero (by rw [hp]; decide) (by rw [hp]; decide))

/-- RESYNC_CNT counts to 750 and no further (R23): it is full only in the waits. -/
theorem CoreEffect.resyncBound (h : CoreEffect s t) (hs : RegisterRules s) :
    t.resyncCnt.toNat ≤ 750 := by
  by_cases hsame : t.resyncCnt = s.resyncCnt
  · exact hsame ▸ hs.resyncBound
  rcases h.resyncCnt_changes hsame with ⟨hp, -, hplus⟩ | ⟨-, -, -, hzero⟩ | ⟨-, -, hzero⟩
  · have hbound := hs.resyncBound
    have hnotFull : s.resyncCnt ≠ 750 := by simpa [hp] using hs.resyncFull
    rw [hplus]
    bv_omega
  all_goals simp [hzero]

theorem State.scaleLatch_spanPositive (hs : s.scaleSpan ≠ 0) : s.scaleLatch.scaleSpan ≠ 0 := by
  rcases s.scaleLatch_cases with ⟨hlt, h⟩ | ⟨-, h⟩ <;> rw [h]
  · show s.rangeMax - s.rangeMin ≠ 0
    bv_omega
  · exact hs

theorem State.scaleLatch_evtRange (hs : s.evt.toNat ≤ 5) : s.scaleLatch.evt.toNat ≤ 5 := by
  rcases s.scaleLatch_cases with ⟨-, h⟩ | ⟨-, h⟩ <;> rw [h]
  · exact hs
  · simp

theorem State.afterPass_evtRange (d : PassData) (hs : s.evt.toNat ≤ 5) :
    (s.afterPass d).evt.toNat ≤ 5 := by
  rw [State.afterPass_evt]
  split
  · decide
  · exact hs

theorem CoreEffect.spanPositive (h : CoreEffect s t) (hs : s.scaleSpan ≠ 0) : t.scaleSpan ≠ 0 := by
  cases h with
  | compositeAuto => simpa using hs
  | compositeLatch =>
    rw [State.goto_scaleSpan]
    exact State.scaleLatch_spanPositive (by simpa using hs)
  | _ => exact hs

theorem CoreEffect.segidRange (h : CoreEffect s t) (hs : s.lastSegid.toNat ≤ 4) :
    t.lastSegid.toNat ≤ 4 := by
  cases h with
  | segCommit _ hv =>
    obtain ⟨-, h4⟩ := s.bitV_iff.mp hv
    exact (Nat.mod_le _ _).trans h4
  | compositeAuto | compositeLatch => simpa using hs
  | _ => exact hs

theorem CoreEffect.evtRange (h : CoreEffect s t) (hs : s.evt.toNat ≤ 5) : t.evt.toNat ≤ 5 := by
  cases h with
  | pktMismatch | busRecoverBegin | segReject => simp
  | compositeAuto =>
    rw [State.goto_evt]
    exact State.afterPass_evtRange _ hs
  | compositeLatch =>
    rw [State.goto_evt]
    exact State.scaleLatch_evtRange (State.afterPass_evtRange _ hs)
  | _ => exact hs

theorem CoreEffect.registerRules (h : CoreEffect s t) (hs : RegisterRules s) : RegisterRules t where
  toPhaseRules := h.phaseRules hs.toPhaseRules
  jRange := by
    rcases h.j_cases hs with hj | ⟨hj, -⟩
    · simp [hj]
    · exact hj
  jZero := fun hacq hcheck => by
    rcases h.j_cases hs with hj | ⟨-, hp⟩
    · exact hj
    · exact absurd hp (not_or.mpr ⟨hacq, hcheck⟩)
  resyncBound := h.resyncBound hs
  spanPositive := h.spanPositive hs.spanPositive
  segidRange := h.segidRange hs.segidRange
  evtRange := h.evtRange hs.evtRange
  delayPositive := by rw [h.sameHost.params]; exact hs.delayPositive

/-! ### What the other agents make of them -/

theorem HostEffect.registerRules {q : HostReq} (h : HostEffect s q t) (hs : RegisterRules s) :
    RegisterRules t := by
  cases h with
  | rangeDone hw haddr hcode hp =>
    have hrun := hs.running (by rw [hp]; decide)
    have hj : s.j = 0 := hs.jZero (by rw [hp]; decide) (by rw [hp]; decide)
    exact
      { toPhaseRules := (hrun.scaleLatch.goto _).phaseRules (by simp)
        jRange := by simp [hj]
        jZero := by simp [hj]
        resyncBound := by simpa using hs.resyncBound
        spanPositive := State.scaleLatch_spanPositive hs.spanPositive
        segidRange := by simpa using hs.segidRange
        evtRange := State.scaleLatch_evtRange hs.evtRange
        delayPositive := by simpa using hs.delayPositive }
  | _ => exact { hs with }

theorem StepEffect.registerRules (h : StepEffect s t) (hs : RegisterRules s) : RegisterRules t := by
  have hpop : RegisterRules s.popTurn := { hs with }
  cases h with
  | idle => exact hpop
  | core _ h => exact h.registerRules hpop
  | host _ _ _ _ h => exact { h.registerRules hpop with }
  | elapsed hp => exact { hs with elapsedWhere := fun _ => hp }
  | returned hp => exact { hs with returnedWhere := fun _ => hp }

/-! ### The clauses about memory -/

theorem mapped_of_window {w : Window} (hw : w ∈ windows) {a : Nat} (hlo : w.base ≤ a)
    (hhi : a < w.base + w.size) : mapped a = true :=
  List.any_eq_true.mpr ⟨w, hw, (w.holds_iff a).mpr ⟨hlo, hhi⟩⟩

/-- An unmapped address lies outside each of the six windows (R66). -/
theorem outside_of_not_mapped {a : Nat} (ha : ¬mapped a = true) :
    (a < 0x01000 ∨ 0x01300 ≤ a) ∧ (a < 0x08000 ∨ 0x080A4 ≤ a) ∧ (a < 0x10000 ∨ 0x199C0 ≤ a) ∧
    (a < 0x20000 ∨ 0x22670 ≤ a) ∧ (a < 0x30000 ∨ 0x39600 ≤ a) ∧ (a < 0x40000 ∨ 0x49600 ≤ a) := by
  have outside : ∀ w ∈ windows, a < w.base ∨ w.base + w.size ≤ a := by
    intro w hw
    by_contra hin
    exact ha (mapped_of_window hw (by omega) (by omega))
  simpa [windows] using outside

/-- No step writes outside the windows. -/
theorem step_unmapped_byte (hm : s.mem.wf) (h : step s = .next t) {a : Nat} (ha : ¬mapped a = true) :
    t.mem.read a = s.mem.read a := by
  obtain ⟨hpalette, hrxpkt, hsegstore, hstaging, htframe, hdframe⟩ := outside_of_not_mapped ha
  cases step_byte_cases hm h a with
  | same h => exact h
  | accept _ _ _ _ hlo hhi => unfold stagingAddr at hlo hhi; omega
  | commit _ _ _ _ hlo hhi => unfold segstoreAddr at hlo hhi; omega
  | recv | composite | colorize | palette => omega

/-- A listed address outside the windows would have been listed before. -/
theorem step_keeps_mapped (hm : s.mem.wf) (h : step s = .next t)
    (hs : ∀ c ∈ s.mem, mapped c.1 = true) : ∀ c ∈ t.mem, mapped c.1 = true := by
  rintro ⟨a, v⟩ hc
  by_contra ha
  rw [Memory.mem_iff_read (step_keeps_memory_wf hm h), step_unmapped_byte hm h ha,
    ← Memory.mem_iff_read hm] at hc
  exact ha (hs _ hc)

/-- A packet that counts as staged after the step counted before, or the step accepted it. -/
theorem CoreEffect.staged_before (h : CoreEffect s t) {p : Nat} (hp : p < 60)
    (hstaged : p < t.j.toNat ∨ t.phase = phSegCheck) :
    (p < s.j.toNat ∨ s.phase = phSegCheck) ∨ (s.bitM = true ∧ p = s.j.toNat ∧
      t.mem = s.mem.store (stagingAddr p 0) (s.mem.load (rxpktAddr 0) 164)) := by
  cases h with
  | pktAccept _ hm hj =>
    have hle : p ≤ s.j.toNat := by
      by_cases hlast : s.j = 59
      · have hj59 : s.j.toNat = 59 := congrArg BitVec.toNat hlast
        omega
      · simp only [if_neg hlast] at hstaged
        have hlt := hstaged.resolve_right (by decide)
        bv_omega
    rcases hle.lt_or_eq with hlt | rfl
    · exact .inl (.inl hlt)
    · exact .inr ⟨hm, rfl, rfl⟩
  | segReject hphase | segCommit hphase => exact .inl (.inr hphase)
  | compositeAuto | compositeLatch => exact .inl (.inl (by simpa using hstaged))
  | pktMismatch => simp at hstaged
  | _ => exact .inl (.inl (by simpa using hstaged))

theorem HostEffect.staged_before {q : HostReq} (h : HostEffect s q t) {p : Nat}
    (hstaged : p < t.j.toNat ∨ t.phase = phSegCheck) : p < s.j.toNat ∨ s.phase = phSegCheck := by
  cases h with
  | rangeDone => exact .inl (by simpa using hstaged)
  | _ => exact hstaged

theorem StepEffect.staged_before (h : StepEffect s t) {p : Nat} (hp : p < 60)
    (hstaged : p < t.j.toNat ∨ t.phase = phSegCheck) :
    (p < s.j.toNat ∨ s.phase = phSegCheck) ∨ (s.bitM = true ∧ p = s.j.toNat ∧
      t.mem = s.mem.store (stagingAddr p 0) (s.mem.load (rxpktAddr 0) 164)) := by
  cases h with
  | core _ h => exact CoreEffect.staged_before h hp hstaged
  | host _ _ _ _ h => exact .inl (HostEffect.staged_before h hstaged)
  | _ => exact .inl hstaged

/-- The sequence byte of an accepted packet is its slot (R98, R121). -/
theorem State.rxpkt_seq_of_bitM (hm : s.bitM = true) :
    s.mem.read (rxpktAddr 1) = BitVec.ofNat 8 s.j.toNat := by
  rw [s.bitM_iff.mp hm, BitVec.ofNat_toNat]

/-- STAGING holds the attempt's packets in order (R127). -/
theorem step_keeps_staged (hm : s.mem.wf) (h : step s = .next t)
    (hs : ∀ p < 60, p < s.j.toNat ∨ s.phase = phSegCheck →
      s.mem.read (stagingAddr p 1) = BitVec.ofNat 8 p) :
    ∀ p < 60, p < t.j.toNat ∨ t.phase = phSegCheck →
      t.mem.read (stagingAddr p 1) = BitVec.ofNat 8 p := by
  intro p hp hstaged
  rcases (step_effect h).staged_before hp hstaged with hbefore | ⟨hbit, hslot, hmem⟩
  · rcases step_staging_byte hm h (i := 1) hp (by decide) with hsame | ⟨-, -, hbit, hslot, hread⟩
    · rw [hsame, hs p hp hbefore]
    · rw [hread, State.rxpkt_seq_of_bitM hbit, hslot]
  · rw [hmem, ← stagingAddr_add p 1, Memory.read_store_load hm _ _ (by decide), rxpktAddr_add,
      State.rxpkt_seq_of_bitM hbit, hslot]

/-- Each buffer is as reset left it or holds one complete attempt (R143). -/
theorem step_keeps_stored (hl : Legal s) (h : step s = .next t) :
    ∀ k < 4, bufferEmpty t.mem k ∨ bufferComplete t.mem k := by
  intro k hk
  have seqInside : ∀ p < 60, 164 * p + 1 < 9840 := by omega
  rcases step_segstore_buffer hl.memoryWf h hk with hsame | ⟨-, hphase, hg, hcopy⟩
  · rcases hl.stored k hk with hempty | ⟨hseq, hid⟩
    · exact .inl fun i hi => (hsame i hi).trans (hempty i hi)
    · refine .inr ⟨fun p hp => ?_, ?_⟩
      · rw [segstoreAddr_split, hsame _ (seqInside p hp), ← segstoreAddr_split, hseq p hp]
      · rw [segstoreAddr_split, hsame _ (by decide), ← segstoreAddr_split, hid]
  · refine .inr ⟨fun p hp => ?_, ?_⟩
    · rw [segstoreAddr_split, hcopy _ (seqInside p hp), ← stagingAddr_split]
      exact hl.staged p hp (.inr hphase)
    · rw [segstoreAddr_split, hcopy _ (by decide), ← stagingAddr_split]
      exact hg

end

/-- Settles O50: the registers by the step's effect, the memory by its windows. -/
theorem stepKeepsLegal : Obligations.StepKeepsLegal := fun _ _ hl h =>
  { (step_effect h).registerRules hl.registerRules with
    memoryWf := step_keeps_memory_wf hl.memoryWf h
    memoryMapped := step_keeps_mapped hl.memoryWf h hl.memoryMapped
    phaseLegal := step_phase_le h
    staged := step_keeps_staged hl.memoryWf h hl.staged
    stored := step_keeps_stored hl h }

/-- Settles O10: at reset the registers are at fixed values and no address is listed. -/
theorem resetIsLegal : Obligations.ResetIsLegal where
  memoryWf := Memory.nil_wf
  memoryMapped := fun _ hc => absurd hc List.not_mem_nil
  phaseLegal := by decide
  jRange := by decide
  jZero := fun _ _ => rfl
  resyncBound := by decide
  resyncFull := by decide
  resyncRecover := by decide
  spanPositive := by decide
  tpEnabled := by decide
  segidRange := by decide
  evtRange := by decide
  elapsedWhere := by decide
  returnedWhere := by decide
  staged := fun p _ h => h.elim (fun hlt => absurd hlt (Nat.not_lt_zero p)) fun hp =>
    absurd hp (by decide)
  stored := fun k _ => .inl fun i _ => State.reset_read_above_palette (segstoreAddr_ge k 0 i)
  delayPositive := Nat.succ_pos _

/-! ### No legal state stops (R220) -/

/-- The CORE's turn: an operation within its range, or a hold. -/
theorem coreTurn_next {s : State} (hp : s.phase.toNat ≤ 8) (hj : s.j.toNat ≤ 59)
    (hspan : s.scaleSpan ≠ 0) : ∃ t, coreTurn s = .next t := by
  rw [coreTurn, decodeDispatch_dispatchWord]
  cases hsel : selectedBy s.phase s.bitM s.bitT s.bitV s.bitK with
  | ok i =>
    obtain ⟨t, ht, -⟩ := (coreCase_of_selected hsel).exec_next (fun _ => hj) fun _ => hspan
    exact ⟨t, ht⟩
  | error e =>
    cases e with
    | reservedPhase =>
      have hreserved := (selectedBy_error_iff _ _ _ _ _).2.mp hsel
      omega
    | hold | tooWide => exact ⟨s, rfl⟩

/-- Settles O51: every agent's turn answers a next state. -/
theorem legalStateNeverStops : Obligations.LegalStateNeverStops := by
  intro s hl
  rw [Runs, step_of_legalPhase hl.phaseLegal]
  rcases hturns : s.turns with _ | ⟨turn, rest⟩
  · rw [agentTurn_core (.inl hturns)]
    exact coreTurn_next (s := s.popTurn) hl.phaseLegal hl.jRange hl.spanPositive
  cases turn with
  | core =>
    rw [agentTurn_core (.inr (by rw [hturns]; rfl))]
    exact coreTurn_next (s := s.popTurn) hl.phaseLegal hl.jRange hl.spanPositive
  | host q =>
    obtain ⟨req, x, hnext, -⟩ := exec_decodeHost s.popTurn q
    exact ⟨_, (agentTurn_host hturns).trans hnext⟩
  | elapsed => exact ⟨_, agentTurn_elapsed hturns⟩
  | returned => exact ⟨_, agentTurn_returned hturns⟩

end Sys2Proof.Machine
end
